-- ==== Sys2Proof/Word.lean ====
section
/-! DEFINITION. The two word sizes the spec names (R2 `SAMPLE_W = 8`, R5 `AW = 32`) and the size of the
external memory (R5 `MEM_SIZE`, R21, R30). -/

namespace Sys2Proof

/-- One sample, one byte of external memory, one byte of scratch memory (R2, R21, R20). -/
abbrev Byte := BitVec 8

/-- One register of the port, one address (R5: `AW = 32`). -/
abbrev Word := BitVec 32

/-- `MEM_SIZE`: external memory has the byte addresses `0 .. 2^32 - 1` (R5, R21, R30). -/
abbrev memSize : Nat := 4294967296

end Sys2Proof
end

