-- ==== Sys2Proof/Syntax.lean ====
section
/-! DEFINITION. The four commands of spec/opcode_table.json (R53), one constructor per row. A command has no
register field and no immediate (R52): its operands are always the registers `N`, `M`, `G`, `INP`. -/

namespace Sys2Proof

/-- The engine's commands (R53). -/
inductive Instr where
  /-- `blur_fused`, `OP = 0x01` (R90). -/
  | blurFused
  /-- `blur_staged`, `OP = 0x02` (R100). -/
  | blurStaged
  /-- `compute_at_store_at`, `OP = 0x03` (R115). -/
  | computeAtStoreAt
  /-- `compute_at_store_root`, `OP = 0x04` (R116). -/
  | computeAtStoreRoot
  deriving DecidableEq, Repr

end Sys2Proof
end

