-- ==== Sys2Proof/WellFormed.lean ====
section
/-! DEFINITION. When a command word has the one format of R52 and R55. An `Instr` has no field, so it can hold
nothing ill-formed; what can be ill-formed is the 32-bit word a host writes to `CMD`. -/

namespace Sys2Proof

/-- Bits `[31:8]` of a command word are zero (R52). -/
def reservedClear (w : Word) : Bool := w.extractLsb' 8 24 == 0#24

/-- `OP`, bits `[7:0]`, is one of the four codes of R53. -/
def opAssigned (w : Word) : Bool :=
  let op := w.extractLsb' 0 8
  op == 0x01#8 || op == 0x02#8 || op == 0x03#8 || op == 0x04#8

/-- R55: "A command word is legal exactly when bits `[31:8]` are zero and `OP` is `0x01`, `0x02`, `0x03` or `0x04`." -/
def legalWord (w : Word) : Bool := reservedClear w && opAssigned w

/-- Every command is well-formed: it carries no operand (R52). -/
def Instr.wellFormed : Instr → Bool
  | .blurFused => true
  | .blurStaged => true
  | .computeAtStoreAt => true
  | .computeAtStoreRoot => true

end Sys2Proof
end

