-- ==== Sys2Proof/Decode.lean ====
section
/-! DEFINITION. The decoder of R56 ("the four-row table of rule R53 with a default arm that faults") and, after it,
the encoder written from the same table. The word is moved whole over the register port (R33, R50), so there is no
byte order to decide. -/

namespace Sys2Proof

/-- Why a word is no command (R55). -/
inductive DecodeError where
  /-- A bit of `[31:8]` is set (R52). -/
  | reservedBitSet
  /-- `OP` is `0x00` or in `0x05 .. 0xFF` (R55: reserved for future strategies, none is a no-op). -/
  | reservedOp (op : Byte)
  deriving DecidableEq, Repr

/-- The command of an `OP` code (R53, R62): what COMPLETE looks up in `CMD[7:0]` (R61). -/
def decodeOp (op : Byte) : Option Instr :=
  if op = 0x01#8 then some .blurFused
  else if op = 0x02#8 then some .blurStaged
  else if op = 0x03#8 then some .computeAtStoreAt
  else if op = 0x04#8 then some .computeAtStoreRoot
  else none

/-- Bits `[7:0]` of a command word (R52). -/
def opField (w : Word) : Byte := w.extractLsb' 0 8

/-- Bits `[31:8]` of a command word (R52). -/
def reservedField (w : Word) : BitVec 24 := w.extractLsb' 8 24

/-- The command a word written to `CMD` stands for, or why it stands for none (R52, R53, R55). -/
def decode (w : Word) : Except DecodeError Instr :=
  if reservedField w ≠ 0#24 then .error .reservedBitSet
  else
    match decodeOp (opField w) with
    | some i => .ok i
    | none => .error (.reservedOp (opField w))

/-- The full command word of a command, the second column of R53's table. -/
def encode : Instr → Word
  | .blurFused => 0x00000001#32
  | .blurStaged => 0x00000002#32
  | .computeAtStoreAt => 0x00000003#32
  | .computeAtStoreRoot => 0x00000004#32

/-- The instruction whose low `nbits` bits, numbered as spec/opcode_table.json numbers them, are `w`; every bit
above is zero. The command word is one 32-bit word (R52). -/
def decodeTableWord (nbits w : Nat) : Option Instr :=
  match decode (BitVec.ofNat 32 (w % 2 ^ nbits)) with
  | .ok i => some i
  | .error _ => none

end Sys2Proof
end

