-- ==== Sys2Proof/Config.lean ====
section
/-! DEFINITION. What the spec leaves OPEN (R5: `SCRATCH_CAP`, `FUSED_FP`) and the values it leaves unspecified
(R151, R153, U4, U7). A parameter is carried by the state (`State.params`), because a step takes nothing but a
state; the machine after reset takes its parameters from the opaque constants below, so nothing in Lean can know
them, and a claim about every state is a claim about every parameter. -/

namespace Sys2Proof

/-- `FUSED_FP` (R5, R73): the floating-point format of the fused path's intermediates. -/
inductive FpFormat where
  /-- IEEE 754 binary64: 1 sign bit, 11 exponent bits, 52 fraction bits (R73); the spec's default. -/
  | binary64
  /-- IEEE 754 binary32: 1 sign bit, 8 exponent bits, 23 fraction bits (R73). -/
  | binary32
  deriving DecidableEq, Repr, Inhabited

/-- The two OPEN parameters of R5, which R10 says are parameters of the model and no state. -/
structure Params where
  /-- `SCRATCH_CAP`: bytes of scratch memory inside the engine, any natural number (R5, D13). -/
  scratchCap : Nat
  /-- `FUSED_FP`: `binary64` or `binary32` (R5, D14). -/
  fusedFp : FpFormat
  deriving DecidableEq, Repr

/-- The capacity of the engine's scratch memory. OPEN in the spec (R5, D13): no body, so nothing can be proved of
its value. notes/assumptions/1.md. -/
opaque Config.scratchCap : Nat

/-- The format of the fused path. OPEN in the spec, with a default (R5, D14): no body, so that what is proved holds
for both. notes/assumptions/1.md. -/
opaque Config.fusedFp : FpFormat

/-- FREE VALUES: the `k`-th byte the spec leaves at "any value" (R151, R153, U4, U7). No body: nothing in Lean can
evaluate it. The state counts how many have been drawn (`State.drawn`), so that each one is independent of the
others. notes/assumptions/2.md. -/
opaque Config.freeByte : Nat → Byte

end Sys2Proof
end

