-- ==== Sys2Proof/Machine/State.lean ====
section
/-! DEFINITION. Everything the spec gives the machine (R10: registers, sequencer, error code, scratch memory, and the
external memory it shares with the host), and what the model adds to make one deterministic step of it: the
parameters, the host's events still to come, what reads have returned, and the count of free values. -/

namespace Sys2Proof.Machine

/-- The sequencer register `STATE` (R17). -/
inductive SeqState where
  /-- No command has been taken since reset. -/
  | idle
  /-- A command has passed its checks and is being carried out. -/
  | busy
  /-- The last command finished and all its writes are in memory. -/
  | done
  /-- A command was refused; `ERRCODE` says why. Left by reset only. -/
  | fault
  deriving DecidableEq, Repr

/-- `ERRCODE` (R15, R120): one of the five errors of the engine, or none. -/
inductive ErrCode where
  /-- Code 0: no error since reset. -/
  | none
  /-- Code 1, `ERR_ILLEGAL_CMD` (R121). -/
  | illegalCmd
  /-- Code 2, `ERR_PRECOND` (R122). -/
  | precond
  /-- Code 3, `ERR_RANGE` (R123). -/
  | range
  /-- Code 4, `ERR_ALIAS` (R124). -/
  | aliased
  /-- Code 5, `ERR_OOM` (R125). -/
  | oom
  deriving DecidableEq, Repr

/-- The eight registers of the port, in index order (R51). -/
inductive Reg where
  | ctx | n | m | g | inp | cmd | status | err
  deriving DecidableEq, Repr

/-- One transaction of the register port: the triple of R50. -/
structure Transaction where
  /-- `true` is a write, `false` a read. -/
  we : Bool
  /-- The register index, `0 .. 7` (R51). -/
  idx : BitVec 3
  /-- The value to write; ignored on a read. -/
  wdata : Word
  deriving DecidableEq, Repr

/-- One event of a run (R161): what the host, the platform and the engine may do next. The list of events a state
holds is one interleaving of them. -/
inductive Event where
  /-- The host issues a transaction on the register port (R50). -/
  | port (t : Transaction)
  /-- The host (or another agent that shares `Mem`) stores a byte (R7, R57). -/
  | memWrite (a : Word) (v : Byte)
  /-- The host (or another agent that shares `Mem`) loads a byte (R7). -/
  | memRead (a : Word)
  /-- The engine gets its turn: COMPLETE, where it is enabled (R61). -/
  | engine
  /-- The host polls `STATUS` until it reads `DONE` or `FAULT` (R57); `spins` is how many of its reads find `BUSY`
  before the engine completes (R158: any finite number). -/
  | poll (spins : Nat)
  /-- The platform asserts reset (R150). -/
  | reset
  deriving DecidableEq, Repr

/-- What a read returned: the observable of a run (R161). -/
inductive Response where
  /-- `rdata` of a register read (R16, R50). -/
  | reg (r : Reg) (v : Word)
  /-- The byte a load by the host returned (R30). -/
  | byte (a : Word) (v : Byte)
  deriving DecidableEq, Repr

/-- The four operand registers (R11) as a command found them: what the footprints of that command are computed from. -/
structure Operands where
  /-- `N`. -/
  n : Word
  /-- `M`. -/
  m : Word
  /-- `G`. -/
  g : Word
  /-- `INP`. -/
  inp : Word
  deriving DecidableEq, Repr

/-- The whole machine: the tuple of R10, the external memory of R21, and the model's own fields. -/
structure State where
  /-- `CTX`, `x[0]` (R12). -/
  ctx : Word
  /-- `N`, `x[1]`: rows (R11). -/
  n : Word
  /-- `M`, `x[2]`: columns, and the row stride of every buffer (R11). -/
  m : Word
  /-- `G`, `x[3]`: output base address (R11). -/
  g : Word
  /-- `INP`, `x[4]`: input base address (R11). -/
  inp : Word
  /-- `CMD`, `x[5]`: last command word taken (R13). -/
  cmd : Word
  /-- `STATE` (R17), read through `STATUS`, `x[6]` (R14). -/
  seq : SeqState
  /-- `ERRCODE`, read through `ERR`, `x[7]` (R15). -/
  err : ErrCode
  /-- `Scr` (R20): the scratch bytes that hold a value, by rising index; a byte not listed is `UNDEF`. -/
  scr : List Host.Cell
  /-- `Mem` (R21, R30): by rising address; a byte not listed reads as `unlistedByte`. -/
  mem : List Host.Cell
  /-- The MODEL's own: `SCRATCH_CAP` and `FUSED_FP` (R5, R10). No step changes them. -/
  params : Params
  /-- The MODEL's own: the events still to come, the next one first (R161). -/
  events : List Event
  /-- The MODEL's own: what the reads so far have returned, oldest first (R161). -/
  out : List Response
  /-- The MODEL's own: the host has touched a footprint of the running command (R153, U4). -/
  tainted : Bool
  /-- The MODEL's own: the operands of the commands that have completed since a read of `STATUS` last returned `DONE`,
  oldest first. For these R153 still asks the host to keep its hands off. notes/assumptions/16.md. -/
  unseen : List Operands
  /-- The MODEL's own: how many free bytes have been drawn (U4, U7). -/
  drawn : Nat
  deriving DecidableEq, Repr

/-- Why the machine stops. No fault is an error of the engine (those are next states, R127); each one stands for an
access the spec proves cannot happen, and each is SAFE: the model stops where the spec describes no run. -/
inductive Fault where
  /-- An access to an address at or above `2^32`, which does not exist (R30). Raised by `memRead` and `memWrite`;
  unreachable by R123. Safe. -/
  | addressOutOfRange (a : Nat)
  /-- A scratch access at or above `SCRATCH_CAP` (R42). Raised by `scrRead` and `scrWrite`; unreachable by R125. Safe. -/
  | scratchOutOfRange (k : Nat)
  /-- A read of an `UNDEF` scratch byte: "the model should fault, not pick a value" (R20, U9). Raised by `scrRead`;
  unreachable by R107. Safe. -/
  | scratchUndef (k : Nat)
  /-- COMPLETE with a `CMD[7:0]` that is no command. Raised by `completeStep`; unreachable, since `Exec` is applied to
  a legal `op` only (R62). Safe. -/
  | busyWithoutCommand (op : Byte)
  deriving DecidableEq, Repr

/-- Why a step has no meaning. -/
inductive Refusal where
  /-- The instruction has no meaning in this model. Raised by no arm of `exec` and by no meaning. Safe. -/
  | notModelled (mnemonic : String)
  deriving DecidableEq, Repr

/-- The machine right after reset (R24, R150), with nothing in memory that reads otherwise than an unlisted byte, and
no event to come. -/
def State.reset : State where
  ctx := 0#32
  n := 0#32
  m := 0#32
  g := 0#32
  inp := 0#32
  cmd := 0#32
  seq := .idle
  err := .none
  scr := []
  mem := []
  params := { scratchCap := Config.scratchCap, fusedFp := Config.fusedFp }
  events := []
  out := []
  tainted := false
  unseen := []
  drawn := 0

end Sys2Proof.Machine
end

