-- ==== Sys2Proof/Machine/Flags.lean ====
section
/-! DEFINITION. The status bits. The engine has no condition codes, no arithmetic flags and no floating-point flags
(R25, R78); the only status bits are `STATE` and `ERRCODE`, read through `STATUS` (R14) and `ERR` (R15). -/

namespace Sys2Proof.Machine

/-- The two bits of `STATE` (R14, R17). -/
def SeqState.code : SeqState → BitVec 2
  | .idle => 0#2
  | .busy => 1#2
  | .done => 2#2
  | .fault => 3#2

/-- The error codes of R120. -/
def ErrCode.code : ErrCode → Byte
  | .none => 0#8
  | .illegalCmd => 1#8
  | .precond => 2#8
  | .range => 3#8
  | .aliased => 4#8
  | .oom => 5#8

/-- What a read of `STATUS` returns: `STATE` in bits `[1:0]`, zeros above (R14). -/
def statusWord (s : State) : Word := s.seq.code.setWidth 32

/-- What a read of `ERR` returns: `zext_32(ERRCODE)` (R15). -/
def errWord (s : State) : Word := s.err.code.setWidth 32

end Sys2Proof.Machine
end

