-- ==== Sys2Proof/Machine/Ops.lean ====
section
/-! DEFINITION. The named operations every command is written over: cells, external memory, scratch memory, the
counted loop, the fault entry (R127) and reset's effect on the registers (R150), the one return from a fault (R128). -/

namespace Sys2Proof.Machine

/-! ## Cells: a sorted list of (key, byte) pairs -/

/-- The byte listed at a key, if one is. -/
def lookupCell : List Host.Cell → Nat → Option Byte
  | [], _ => none
  | (b, u) :: rest, a => if b = a then some u else lookupCell rest a

/-- List a byte at a key, keeping the keys rising. -/
def insertCell : List Host.Cell → Nat → Byte → List Host.Cell
  | [], a, v => [(a, v)]
  | (b, u) :: rest, a, v =>
    if a < b then (a, v) :: (b, u) :: rest
    else if a = b then (a, v) :: rest
    else (b, u) :: insertCell rest a v

/-- List no byte at a key. -/
def eraseCell : List Host.Cell → Nat → List Host.Cell
  | [], _ => []
  | (b, u) :: rest, a => if b = a then eraseCell rest a else (b, u) :: eraseCell rest a

/-- The keys of a cell list rise strictly. -/
abbrev Cells.rising (cells : List Host.Cell) : Prop := cells.Pairwise (fun c d => c.1 < d.1)

/-! ## External memory (R21, R30) -/

/-- What an address of `Mem` not listed reads as. DESIGN CHOICE, unsafe: the spec has a total `Mem` (R30) and gives no
contents after power-on. notes/assumptions/3.md. -/
def unlistedByte : Byte := 0#8

/-- The canonical form of memory: addresses rise, exist (R30), and no entry equals what an unlisted address reads as. -/
abbrev Memory.wf (mem : List Host.Cell) : Prop :=
  Cells.rising mem ∧ ∀ c ∈ mem, c.1 < memSize ∧ c.2 ≠ unlistedByte

/-- `Mem[a]` (R30): the byte at an address. -/
def readByte (mem : List Host.Cell) (a : Nat) : Byte := (lookupCell mem a).getD unlistedByte

/-- `Mem` with one byte changed (R30), in canonical form. -/
def setByte (mem : List Host.Cell) (a : Nat) (v : Byte) : List Host.Cell :=
  if v = unlistedByte then eraseCell mem a else insertCell mem a v

/-- `MemRead(a, 1)` (R30). -/
def memRead (mem : List Host.Cell) (a : Nat) : Except Fault Byte :=
  if a < memSize then .ok (readByte mem a) else .error (.addressOutOfRange a)

/-- `MemWrite(a, 1, v)` (R30). -/
def memWrite (mem : List Host.Cell) (a : Nat) (v : Byte) : Except Fault (List Host.Cell) :=
  if a < memSize then .ok (setByte mem a v) else .error (.addressOutOfRange a)

/-! ## Scratch memory (R20, R42) -/

/-- `ScrRead(k)` (R42), which faults on a byte that is `UNDEF` (R20). -/
def scrRead (cap : Nat) (scr : List Host.Cell) (k : Nat) : Except Fault Byte :=
  if k < cap then
    match lookupCell scr k with
    | some v => .ok v
    | none => .error (.scratchUndef k)
  else .error (.scratchOutOfRange k)

/-- `ScrWrite(k, v)` (R42). -/
def scrWrite (cap : Nat) (scr : List Host.Cell) (k : Nat) (v : Byte) : Except Fault (List Host.Cell) :=
  if k < cap then .ok (insertCell scr k v) else .error (.scratchOutOfRange k)

/-! ## The counted loop -/

/-- `for i in [0, k)` in increasing order (R6), stopping at the first fault. -/
def forRange {ε σ : Type} : Nat → (Nat → σ → Except ε σ) → σ → Except ε σ
  | 0, _, s => .ok s
  | k + 1, body, s => (forRange k body s).bind (body k)

/-! ## The sequencer's shared operations -/

/-- Fault entry, `raise e` (R127): `ERRCODE` and `STATE`, "and nothing else". -/
def raise (e : ErrCode) (s : State) : State := { s with err := e, seq := .fault }

/-- What reset does to the engine (R24, R150), and the only way out of `FAULT` (R128). Memory is `resetEvent`'s
business (R151). Commands the host was to keep its hands off, and its violation of R153, are forgotten: the engine "is
indistinguishable from one that has never run". -/
def resetEngine (s : State) : State :=
  { s with
    ctx := 0#32, n := 0#32, m := 0#32, g := 0#32, inp := 0#32, cmd := 0#32
    err := .none, seq := .idle, scr := [], tainted := false, unseen := [] }

/-- The operand registers, together (R11). -/
def State.operands (s : State) : Operands := { n := s.n, m := s.m, g := s.g, inp := s.inp }

/-- The state with other operands in the registers: a command's footprints are those of this state. -/
def useOperands (o : Operands) (s : State) : State := { s with n := o.n, m := o.m, g := o.g, inp := o.inp }

/-- The end of COMPLETE (R61): `Scr <- all UNDEF; STATE <- DONE`. The host has not yet read that it is `DONE` (R153). -/
def finish (s : State) : State :=
  { s with scr := [], seq := .done, tainted := false, unseen := s.unseen ++ [s.operands] }

/-- The host has read `STATUS` as `DONE`, so that R153 no longer binds it for any command that has completed. -/
def seeDone (s : State) : State := { s with unseen := [] }

/-- A read returns a value to the host and changes nothing else (R16, R30). -/
def respond (r : Response) (s : State) : State := { s with out := s.out ++ [r] }

/-- The next event has been taken. -/
def setEvents (events : List Event) (s : State) : State := { s with events := events }

/-- External memory is replaced. -/
def setMem (mem : List Host.Cell) (s : State) : State := { s with mem := mem }

/-- Scratch memory is replaced. -/
def setScr (scr : List Host.Cell) (s : State) : State := { s with scr := scr }

/-- One free byte has been drawn. -/
def countDraw (s : State) : State := { s with drawn := s.drawn + 1 }

/-- The host has broken R153 (U4). -/
def taint (s : State) : State := { s with tainted := true }

/-- What a step answers when the work it does may fault. -/
def toOutcome : Except Fault State → Host.Outcome State Fault Refusal
  | .ok s => .next s
  | .error f => .fault f

end Sys2Proof.Machine
end

