-- ==== Sys2Proof/Machine/Operands.lean ====
section
/-! DEFINITION. The register port's index map and registers (R11 to R16, R51), the operands of a command as natural
numbers (R54), element addresses and footprints (R31, R32), and the loads and stores of samples (R82, R83). -/

namespace Sys2Proof.Machine

/-! ## Registers -/

/-- The register of an index (R51). -/
def Reg.ofIdx (idx : BitVec 3) : Reg :=
  if idx = 0#3 then .ctx
  else if idx = 1#3 then .n
  else if idx = 2#3 then .m
  else if idx = 3#3 then .g
  else if idx = 4#3 then .inp
  else if idx = 5#3 then .cmd
  else if idx = 6#3 then .status
  else .err

/-- The index of a register (R51, R57). -/
def Reg.idx : Reg → BitVec 3
  | .ctx => 0#3
  | .n => 1#3
  | .m => 2#3
  | .g => 3#3
  | .inp => 4#3
  | .cmd => 5#3
  | .status => 6#3
  | .err => 7#3

/-- Register read (R16): the value a read of a register returns, in every value of `STATE`. -/
def readReg (r : Reg) (s : State) : Word :=
  match r with
  | .ctx => s.ctx
  | .n => s.n
  | .m => s.m
  | .g => s.g
  | .inp => s.inp
  | .cmd => s.cmd
  | .status => statusWord s
  | .err => errWord s

/-- `x[k] <- v` for the registers a host may write without starting anything, `k` in `0 .. 4` (R18). The other three
are not changed by this: a write of `CMD` is START (R60), `STATUS` and `ERR` are read-only. -/
def writeOperand (r : Reg) (v : Word) (s : State) : State :=
  match r with
  | .ctx => { s with ctx := v }
  | .n => { s with n := v }
  | .m => { s with m := v }
  | .g => { s with g := v }
  | .inp => { s with inp := v }
  | .cmd => s
  | .status => s
  | .err => s

/-! ## Operands as natural numbers (R54): unsigned, no scaling, no wrap-around -/

/-- `n = N`, the rows (R54). -/
def State.rows (s : State) : Nat := s.n.toNat

/-- `m = M`, the columns and the stride (R54). -/
def State.cols (s : State) : Nat := s.m.toNat

/-- `g = G`, the output base (R54). -/
def State.outBase (s : State) : Nat := s.g.toNat

/-- `inp = INP`, the input base (R54). -/
def State.inBase (s : State) : Nat := s.inp.toNat

/-! ## Addresses and footprints -/

/-- `Addr(B, i, j) = B + i*m + j` (R31), over the integers. -/
def elementAddr (base cols i j : Nat) : Nat := base + i * cols + j

/-- `a` is in `InFootprint = [INP, INP + n*m)` (R32). -/
def inFootprint (s : State) (a : Nat) : Bool :=
  decide (s.inBase ≤ a ∧ a < s.inBase + s.rows * s.cols)

/-- `a` is in `OutFootprint = [G, G + n*m)` (R32). -/
def outFootprint (s : State) (a : Nat) : Bool :=
  decide (s.outBase ≤ a ∧ a < s.outBase + s.rows * s.cols)

/-- `a` is in `OutValid`: the row and the column of `a` in the output buffer are in the valid region (R32, R70). -/
def outValid (s : State) (a : Nat) : Bool :=
  decide (s.outBase ≤ a ∧ (a - s.outBase) / s.cols < s.rows - 4 ∧ (a - s.outBase) % s.cols < s.cols - 4)

/-! ## Loads and stores of samples -/

/-- `LoadIn(i, j)` (R82); a byte is zero-extended where it is summed. -/
def loadIn (i j : Nat) (s : State) : Except Fault Byte :=
  memRead s.mem (elementAddr s.inBase s.cols i j)

/-- `LoadF(i, j)` (R82). -/
def loadF (i j : Nat) (s : State) : Except Fault Byte :=
  scrRead s.params.scratchCap s.scr (elementAddr 0 s.cols i j)

/-- `StoreG(i, j, v)` (R83): "the only way the engine changes `Mem`". -/
def storeG (i j : Nat) (v : Byte) (s : State) : Except Fault State :=
  (memWrite s.mem (elementAddr s.outBase s.cols i j) v).map (fun mem => setMem mem s)

/-- `StoreF(i, j, v)` (R83). -/
def storeF (i j : Nat) (v : Byte) (s : State) : Except Fault State :=
  (scrWrite s.params.scratchCap s.scr (elementAddr 0 s.cols i j) v).map (fun scr => setScr scr s)

/-- Every position of the valid region, rows outer, columns inner (R70, R157). -/
def forValid (body : Nat → Nat → State → Except Fault State) (s : State) : Except Fault State :=
  forRange (s.rows - 4) (fun i si => forRange (s.cols - 4) (fun j sj => body i j sj) si) s

end Sys2Proof.Machine
end

