-- ==== Sys2Proof/Machine/Command.lean ====
section
/-! DEFINITION. The two steps of a command: START, with the five checks in their order (R60, R121 to R126), and
COMPLETE (R61), in the form all four commands share. -/

namespace Sys2Proof.Machine

/-! ## The checks of START -/

/-- `OP` selects a staged command: `blur_staged` or one of its two aliases (R125). -/
abbrev stagedOp (w : Word) : Prop := opField w = 0x02#8 ∨ opField w = 0x03#8 ∨ opField w = 0x04#8

/-- `Illegal(w)` (R121). -/
abbrev illegal (w : Word) : Prop := reservedField w ≠ 0#24 ∨ ¬ (opField w = 0x01#8 ∨ stagedOp w)

/-- `Precond(n, m)` (R122). -/
abbrev precondViolated (n m : Nat) : Prop := n ≤ 5 ∨ m ≤ 5

/-- `Range(n, m, g, inp)` (R123), over the integers. -/
abbrev rangeViolated (n m g inp : Nat) : Prop := inp + n * m > memSize ∨ g + n * m > memSize

/-- `Alias(n, m, g, inp)` (R124). -/
abbrev aliasViolated (n m g inp : Nat) : Prop := inp < g + n * m ∧ g < inp + n * m

/-- `Oom(w, n, m)` (R125), for a scratch memory of `cap` bytes. -/
abbrev oomViolated (cap : Nat) (w : Word) (n m : Nat) : Prop := stagedOp w ∧ n * m > cap

/-- `FirstError(w, n, m, g, inp)` (R126): the error with the lowest code, and only that one. -/
def firstError (cap : Nat) (w : Word) (n m g inp : Nat) : ErrCode :=
  if illegal w then .illegalCmd
  else if precondViolated n m then .precond
  else if rangeViolated n m g inp then .range
  else if aliasViolated n m g inp then .aliased
  else if oomViolated cap w n m then .oom
  else .none

/-- `FirstError` of a command word with the operands and the capacity the machine has (R60). -/
def State.firstError (s : State) (w : Word) : ErrCode :=
  Machine.firstError s.params.scratchCap w s.rows s.cols s.outBase s.inBase

/-! ## START -/

/-- START (R60): `CMD <- w`; the checks; then the fault entry or `BUSY`. It touches neither `Mem` nor `Scr`. A command
starts with no violation of R153 behind it. -/
def start (w : Word) (s : State) : State :=
  let e := s.firstError w
  let s := { s with cmd := w, tainted := false }
  if e = .none then { s with seq := .busy } else raise e s

/-! ## COMPLETE -/

/-- One byte of `OutValid` takes any value, each byte independently (R151, U4, U7). -/
def havocPosition (i j : Nat) (s : State) : Except Fault State :=
  storeG i j (Config.freeByte s.drawn) (countDraw s)

/-- Every byte of `OutValid` takes any value; every other byte of `Mem` is unchanged (R151, U4, U7). -/
def havocOutValid (s : State) : Except Fault State := forValid havocPosition s

/-- COMPLETE (R61) for a command whose work on the memories is `effect`. Where the host has broken R153, the bytes of
`OutValid` are unspecified instead (R153, U4). -/
def complete (effect : State → Except Fault State) (s : State) : Host.Outcome State Fault Refusal :=
  toOutcome ((if s.tainted then havocOutValid s else effect s).map finish)

/-- What a command does at its next step: START from `IDLE` or `DONE` (R60), COMPLETE in `BUSY` (R61), nothing in
`FAULT`, where a write of `CMD` is dropped (R18, R128). -/
def commandStep (i : Instr) (effect : State → Except Fault State) (s : State) : Host.Outcome State Fault Refusal :=
  match s.seq with
  | .idle => .next (start (encode i) s)
  | .done => .next (start (encode i) s)
  | .busy => complete effect s
  | .fault => .next s

end Sys2Proof.Machine
end

