-- ==== Sys2Proof/Machine/Fp.lean ====
section
/-! DEFINITION. The floating-point primitives of the fused path (R73 to R79). Every operand and result is a finite
non-negative number not above 1275 (R78, R80), so a number is a significand times a power of two, of either sign of
exponent and with no bound on it: no overflow, no subnormal, no infinity and no NaN is ever formed.
notes/assumptions/4.md. -/

namespace Sys2Proof.Machine

/-- The significand's width: 53 bits in binary64, 24 in binary32 (R73). -/
def precision : FpFormat → Nat
  | .binary64 => 53
  | .binary32 => 24

/-- A finite non-negative floating-point number: `sig * 2^exp`. A nonzero number of a format is held with a
significand of exactly `precision` bits, zero as `0 * 2^0`, so that equal numbers are equal data. -/
structure Fp where
  sig : Nat
  exp : Int
  deriving DecidableEq, Repr

/-- The numerator of a number as a fraction of naturals. -/
def fpNum (x : Fp) : Nat := x.sig * 2 ^ x.exp.toNat

/-- The denominator of a number as a fraction of naturals. -/
def fpDen (x : Fp) : Nat := 2 ^ (-x.exp).toNat

/-- The exponent of the last significand bit for the fraction `num / den`: the fraction divided by two to it lies in
`[2^(p-1), 2^p)`. -/
def lastBitExp (p num den : Nat) : Int :=
  let k : Int := (Nat.log2 num : Int) - (Nat.log2 den : Int)
  let k := if num * 2 ^ (-k).toNat < den * 2 ^ k.toNat then k - 1 else k
  k - ((p : Int) - 1)

/-- Rounding to nearest, ties to even, of a quotient of naturals to an integer. -/
def divNearestEven (a b : Nat) : Nat :=
  let q := a / b
  let r := a % b
  if b < 2 * r then q + 1 else if b = 2 * r ∧ q % 2 = 1 then q + 1 else q

/-- `RN(num / den)`: an exact non-negative quotient rounded once, to nearest, ties to even, to `p` significand bits
(R73, R80). -/
def roundNearestEven (p num den : Nat) : Fp :=
  if num = 0 then { sig := 0, exp := 0 }
  else
    let e := lastBitExp p num den
    let sig := divNearestEven (num * 2 ^ (-e).toNat) (den * 2 ^ e.toNat)
    if sig = 2 ^ p then { sig := 2 ^ (p - 1), exp := e + 1 } else { sig := sig, exp := e }

/-- `fp(k)`, the number equal to an integer `0 .. 1275`, exact in both formats (R74). -/
def fp (fmt : FpFormat) (k : Nat) : Fp := roundNearestEven (precision fmt) k 1

/-- `FIVE = fp(5)`, the only constant of the datapath (R75). -/
def fpFive (fmt : FpFormat) : Fp := fp fmt 5

/-- `fp_div(a, b)`: the real quotient, rounded once (R76). The divisor is always `FIVE`. -/
def fpDiv (fmt : FpFormat) (a b : Fp) : Fp :=
  roundNearestEven (precision fmt) (fpNum a * fpDen b) (fpDen a * fpNum b)

/-- `fp_add(a, b)`: the real sum, rounded once (R77). -/
def fpAdd (fmt : FpFormat) (a b : Fp) : Fp :=
  roundNearestEven (precision fmt) (fpNum a * fpDen b + fpNum b * fpDen a) (fpDen a * fpDen b)

/-- The argument of `trunc_u8`, which R79 makes total: any floating-point datum. -/
inductive FpDatum where
  | finite (negative : Bool) (x : Fp)
  | infinite (negative : Bool)
  | nan
  deriving DecidableEq, Repr

/-- `trunc_u8(x)` (R79): `floor(x)` for `0 <= x < 256`; its completion, which no command reaches (R80), is 255 for
`x >= 256` and 0 for `x < 0` or `x` not a number. -/
def truncU8 : FpDatum → Byte
  | .finite false x => if fpNum x / fpDen x < 256 then BitVec.ofNat 8 (fpNum x / fpDen x) else 255#8
  | .finite true _ => 0#8
  | .infinite false => 255#8
  | .infinite true => 0#8
  | .nan => 0#8

/-- The exponent bias of a format's encoding (R73, G1). -/
def bias : FpFormat → Int
  | .binary64 => 1023
  | .binary32 => 127

/-- The IEEE 754 encoding of a number that is zero or normal in the format (R73, R75, G1), as the traces of
spec/95_test_vectors.md write it. -/
def fpBits (fmt : FpFormat) (x : Fp) : Nat :=
  if x.sig = 0 then 0
  else
    let p := precision fmt
    (x.exp + ((p : Int) - 1) + bias fmt).toNat * 2 ^ (p - 1) + (x.sig - 2 ^ (p - 1))

end Sys2Proof.Machine
end

