-- ==== Sys2Proof/Machine/Datapath.lean ====
section
/-! DEFINITION. The shared datapath (40_shared_datapath.md) and the per-sample function of the fused command:
`Sum5` (R72), `Avg5` (R81), `FusedPx` (R91). The values they hold are transient (R19): no state. -/

namespace Sys2Proof.Machine

/-- `Sum5` (R72): the exact integer sum of five unsigned samples. -/
def sum5 (a0 a1 a2 a3 a4 : Byte) : Nat :=
  a0.toNat + a1.toNat + a2.toNat + a3.toNat + a4.toNat

/-- `Sum5` of five loads, in the order the pseudocode names them (R90, R102, R104). -/
def sumLoads (load : Nat → Except Fault Byte) : Except Fault Nat :=
  (load 0).bind fun a0 => (load 1).bind fun a1 => (load 2).bind fun a2 => (load 3).bind fun a3 =>
    (load 4).map fun a4 => sum5 a0 a1 a2 a3 a4

/-- The row sum at row `i`, columns `j .. j+4`, of the input buffer (R71, R90, R102). -/
def rowSum (i j : Nat) (s : State) : Except Fault Nat := sumLoads fun e => loadIn i (j + e) s

/-- The column sum at rows `i .. i+4`, column `j`, of the scratch buffer (R104). -/
def colSum (i j : Nat) (s : State) : Except Fault Nat := sumLoads fun d => loadF (i + d) j s

/-- `Avg5(s) = floor(s / 5)` (R81), the truncated mean of five samples with sum `s`. -/
def avg5 (s : Nat) : Byte := BitVec.ofNat 8 (s / 5)

/-- The accumulator of the fused path: five row means, not truncated, added top row first, left to right (R91). -/
def fusedAcc (fmt : FpFormat) (s0 s1 s2 s3 s4 : Nat) : Fp :=
  let mean := fun k => fpDiv fmt (fp fmt k) (fpFive fmt)
  let acc := mean s0
  let acc := fpAdd fmt acc (mean s1)
  let acc := fpAdd fmt acc (mean s2)
  let acc := fpAdd fmt acc (mean s3)
  fpAdd fmt acc (mean s4)

/-- `FusedPx` (R91): ten rounding operations and one truncation. -/
def fusedPx (fmt : FpFormat) (s0 s1 s2 s3 s4 : Nat) : Byte :=
  truncU8 (.finite false (fpDiv fmt (fusedAcc fmt s0 s1 s2 s3 s4) (fpFive fmt)))

end Sys2Proof.Machine
end

