-- ==== Sys2Proof/Machine/Staged.lean ====
section
/-! DEFINITION. The staged command, `blur_staged` (42_staged.md): the scratch lifecycle, the horizontal pass, the
vertical pass. -/

namespace Sys2Proof.Machine

/-- `Acquire` (R101): "On acquisition every scratch byte is `UNDEF`". -/
def acquire (s : State) : State := setScr [] s

/-- One position of the horizontal pass (R102). -/
def producerPosition (i j : Nat) (s : State) : Except Fault State :=
  (rowSum i j s).bind fun t => storeF i j (avg5 t) s

/-- `Producer` (R102): all `n` rows, the first `m-4` columns of each. -/
def producer (s : State) : Except Fault State :=
  forRange s.rows (fun i si => forRange (s.cols - 4) (fun j sj => producerPosition i j sj) si) s

/-- One position of the vertical pass (R104). -/
def consumerPosition (i j : Nat) (s : State) : Except Fault State :=
  (colSum i j s).bind fun t => storeG i j (avg5 t) s

/-- `Consumer` (R104): every position of the valid region. -/
def consumer (s : State) : Except Fault State := forValid consumerPosition s

/-- `Release` (R105): every scratch byte becomes `UNDEF`. -/
def release (s : State) : State := setScr [] s

/-- `Staged` (R100): acquire, produce, consume, release, in strict sequence (R103). -/
def stagedEffect (s : State) : Except Fault State :=
  (producer (acquire s)).bind fun s1 => (consumer s1).map release

/-- `blur_staged`, `OP = 0x02` (R100): START checks and enters `BUSY` or `FAULT`; COMPLETE runs the two passes. -/
def execBlurStaged (s : State) : Host.Outcome State Fault Refusal := commandStep .blurStaged stagedEffect s

end Sys2Proof.Machine
end

