-- ==== Sys2Proof/Machine/ComputeAt.lean ====
section
/-! DEFINITION. The two declared-only variants (43_compute_at.md): complete aliases of `blur_staged` in bytes, faults
and scratch requirement (R117). The alias is in the semantics, not in the register: `CMD` reads back the word
written (R115, R116). -/

namespace Sys2Proof.Machine

/-- `compute_at_store_at`, `OP = 0x03` (R115). -/
def execComputeAtStoreAt (s : State) : Host.Outcome State Fault Refusal :=
  commandStep .computeAtStoreAt stagedEffect s

/-- `compute_at_store_root`, `OP = 0x04` (R116). -/
def execComputeAtStoreRoot (s : State) : Host.Outcome State Fault Refusal :=
  commandStep .computeAtStoreRoot stagedEffect s

end Sys2Proof.Machine
end

