-- ==== Sys2Proof/Machine/Fused.lean ====
section
/-! DEFINITION. The fused command, `blur_fused` (41_fused.md). -/

namespace Sys2Proof.Machine

/-- One position of the fused loop (R90): five row sums, and the sample function stored. -/
def fusedPosition (i j : Nat) (s : State) : Except Fault State :=
  (rowSum i j s).bind fun s0 => (rowSum (i + 1) j s).bind fun s1 => (rowSum (i + 2) j s).bind fun s2 =>
    (rowSum (i + 3) j s).bind fun s3 => (rowSum (i + 4) j s).bind fun s4 =>
      storeG i j (fusedPx s.params.fusedFp s0 s1 s2 s3 s4) s

/-- `Fused` (R90): every position of the valid region. It uses no scratch memory. -/
def fusedEffect (s : State) : Except Fault State := forValid fusedPosition s

/-- `blur_fused`, `OP = 0x01` (R90): START checks and enters `BUSY` or `FAULT`; COMPLETE writes the valid region. -/
def execBlurFused (s : State) : Host.Outcome State Fault Refusal := commandStep .blurFused fusedEffect s

end Sys2Proof.Machine
end

