-- ==== Sys2Proof/Machine/Dispatch.lean ====
section
/-! DEFINITION. `Exec`, the dispatch function (R62), over the whole command: one arm per row of the opcode table. -/

namespace Sys2Proof.Machine

def exec (i : Instr) (s : State) : Host.Outcome State Fault Refusal :=
  match i with
  | .blurFused => Sys2Proof.Machine.execBlurFused s
  | .blurStaged => Sys2Proof.Machine.execBlurStaged s
  | .computeAtStoreAt => Sys2Proof.Machine.execComputeAtStoreAt s
  | .computeAtStoreRoot => Sys2Proof.Machine.execComputeAtStoreRoot s

end Sys2Proof.Machine
end

