-- ==== Sys2Proof/Machine/HandsOff.lean ====
section
/-! DEFINITION. The hands-off rule (R153): "From the `CMD` write until a `STATUS` read returns `DONE`". A command binds
the host while it runs, by the operand registers, and after COMPLETE until the host has read `DONE`, by the operands
`unseen` keeps. What follows where the host breaks the rule is U4's any value. notes/assumptions/9.md, 16.md. -/

namespace Sys2Proof.Machine

/-! ## Which accesses touch a command -/

/-- A store to `a` is one R153 forbids during the command whose operands are in the registers. -/
def storeTouches (a : Nat) (s : State) : Bool := inFootprint s a || outFootprint s a

/-- A load from `a` is one R153 forbids during the command whose operands are in the registers. -/
def loadTouches (a : Nat) (s : State) : Bool := outFootprint s a

/-- The access touches a command that has completed unseen (R153). -/
def touchesUnseen (touches : State → Bool) (s : State) : Bool := s.unseen.any fun o => touches (useOperands o s)

/-- The access breaks R153: it touches the running command, or one that has completed unseen. -/
def breaksHandsOff (touches : State → Bool) (s : State) : Bool :=
  (decide (s.seq = .busy) && touches s) || touchesUnseen touches s

/-! ## Which bytes a violation makes unspecified -/

/-- The command whose operands are in the registers has read a byte at one of the addresses. -/
def readsSome (addrs : Nat → Bool) (s : State) : Bool :=
  (List.range (s.rows * s.cols)).any fun k => addrs (s.inBase + k)

/-- Which addresses hold unspecified bytes after one more command, where `addrs` held them before it: its own results,
where the access touches it (U4) or it has read such a byte (R22); none of its results where neither is so (R39 (b)). -/
def spoilStep (touches : State → Bool) (addrs : Nat → Bool) (s : State) : Nat → Bool :=
  if touches s || readsSome addrs s then fun a => outValid s a || addrs a
  else fun a => !outValid s a && addrs a

/-- The same after some commands, in the order they completed. -/
def spoilAll (touches : State → Bool) (s : State) : List Operands → (Nat → Bool) → Nat → Bool
  | [], addrs => addrs
  | o :: rest, addrs => spoilAll touches s rest (spoilStep touches addrs (useOperands o s))

/-- The addresses whose bytes an access makes unspecified: those last written by a command completed unseen that the
access touches, or by one that has read such a byte. -/
def spoiled (touches : State → Bool) (s : State) : Nat → Bool := spoilAll touches s s.unseen fun _ => false

/-! ## What a violation does -/

/-- One byte of `OutValid` takes any value, if it is at one of the addresses. -/
def havocPositionAt (addrs : Nat → Bool) (i j : Nat) (s : State) : Except Fault State :=
  if addrs (elementAddr s.outBase s.cols i j) then havocPosition i j s else .ok s

/-- The bytes of a completed command's `OutValid` that are at one of the addresses take any value (R153, U4). -/
def havocCommand (addrs : Nat → Bool) (o : Operands) (s : State) : Except Fault State :=
  (forValid (havocPositionAt addrs) (useOperands o s)).map (useOperands s.operands)

/-- The same for each of some completed commands, in their order. -/
def havocCommands (addrs : Nat → Bool) : List Operands → State → Except Fault State
  | [], s => .ok s
  | o :: rest, s => (havocCommand addrs o s).bind (havocCommands addrs rest)

/-- What an access by the host does beyond itself: where it touches the running command, that command will leave any
values at its `OutValid` (`complete`); where it touches one completed unseen, the bytes it makes unspecified take any
value at once. -/
def breakHandsOff (touches : State → Bool) (s : State) : Except Fault State :=
  (if touchesUnseen touches s then havocCommands (spoiled touches s) s.unseen s else .ok s).map fun t =>
    if s.seq = .busy ∧ touches s = true then taint t else t

end Sys2Proof.Machine
end

