-- ==== Sys2Proof/Machine/Events.lean ====
section
/-! DEFINITION. What each event of a run does (R161): a transaction of the register port (R16, R18, R50), the host's
own accesses to `Mem` (R7, R30, R153), the engine's turn (R61), a poll of `STATUS` (R57), and reset (R150, R151). -/

namespace Sys2Proof.Machine

/-! ## The register port -/

/-- A write of `w` to `CMD` in `IDLE` or `DONE`: START of the command it decodes to, or of a word that is none, which
START itself turns into `ERR_ILLEGAL_CMD` (R55, R60). -/
def startWord (w : Word) (s : State) : Host.Outcome State Fault Refusal :=
  match decode w with
  | .ok i => exec i s
  | .error _ => .next (start w s)

/-- Register write, by state (R18): dropped in `BUSY` and `FAULT`. -/
def regWrite (r : Reg) (v : Word) (s : State) : Host.Outcome State Fault Refusal :=
  if s.seq = .busy ∨ s.seq = .fault then .next s
  else if r = .cmd then startWord v s
  else .next (writeOperand r v s)

/-- What a read tells the host of its duty R153: a read of `STATUS` that returns `DONE` ends it. -/
def noteRead (r : Reg) (s : State) : State := if r = .status ∧ s.seq = .done then seeDone s else s

/-- Register read (R16): the value is returned, and nothing of the engine or of memory changes. -/
def regRead (r : Reg) (s : State) : State := respond (.reg r (readReg r s)) (noteRead r s)

/-- One transaction (R50). -/
def portStep (t : Transaction) (s : State) : Host.Outcome State Fault Refusal :=
  if t.we then regWrite (Reg.ofIdx t.idx) t.wdata s else .next (regRead (Reg.ofIdx t.idx) s)

/-- `wr <reg>, <value>` (R57). -/
def wr (r : Reg) (v : Word) : Event := .port { we := true, idx := r.idx, wdata := v }

/-- `rd <reg>` (R57). -/
def rd (r : Reg) : Event := .port { we := false, idx := r.idx, wdata := 0#32 }

/-! ## The engine's own step -/

/-- COMPLETE (R61), with the command of `CMD[7:0]`. -/
def completeStep (s : State) : Host.Outcome State Fault Refusal :=
  match decodeOp (opField s.cmd) with
  | some i => exec i s
  | none => .fault (.busyWithoutCommand (opField s.cmd))

/-- The engine's turn: COMPLETE is "enabled exactly when `STATE = BUSY`" (R61); else the engine has no step (R161). -/
def engineTurn (s : State) : Host.Outcome State Fault Refusal :=
  if s.seq = .busy then completeStep s else .next s

/-! ## The host's accesses to memory -/

/-- A byte stored by the host (R30). A store to either footprint of a command it must keep its hands off breaks R153
(U4). -/
def hostWrite (a : Word) (v : Byte) (s : State) : Host.Outcome State Fault Refusal :=
  toOutcome (breakHandsOff (storeTouches a.toNat) (setMem (setByte s.mem a.toNat v) s))

/-- A byte loaded by the host (R30). A load from the output footprint of a command it must keep its hands off breaks R153
and returns any value (R39, U4); a load from the input footprint is allowed (R153). -/
def hostRead (a : Word) (s : State) : Host.Outcome State Fault Refusal :=
  if breaksHandsOff (loadTouches a.toNat) s then
    toOutcome (breakHandsOff (loadTouches a.toNat) (countDraw (respond (.byte a (Config.freeByte s.drawn)) s)))
  else .next (respond (.byte a (readByte s.mem a.toNat)) s)

/-! ## Polling, reset, and one event -/

/-- `poll` (R57), with the events that follow it: a read of `STATUS`, repeated while it does not show `DONE` or
`FAULT`. In `BUSY` the engine completes after `spins` reads (R158: a finite number the spec does not give); in `IDLE`
nothing ever ends the poll. -/
def pollStep (spins : Nat) (rest : List Event) (s : State) : Host.Outcome State Fault Refusal :=
  match s.seq, spins with
  | .busy, 0 => completeStep (setEvents (.poll 0 :: rest) s)
  | .busy, k + 1 => .next (setEvents (.poll k :: rest) (regRead .status s))
  | .idle, k => .next (setEvents (.poll k :: rest) (regRead .status s))
  | .done, _ => .next (setEvents rest (regRead .status s))
  | .fault, _ => .next (setEvents rest (regRead .status s))

/-- Reset (R150). Taken in `BUSY` it abandons the command, whose `OutValid` bytes then hold any values (R151). -/
def resetEvent (s : State) : Host.Outcome State Fault Refusal :=
  if s.seq = .busy then toOutcome ((havocOutValid s).map resetEngine) else .next (resetEngine s)

/-- One event of the run, taken off the list; `poll` alone may stay. -/
def eventStep (e : Event) (rest : List Event) (s : State) : Host.Outcome State Fault Refusal :=
  match e with
  | .port t => portStep t (setEvents rest s)
  | .memWrite a v => hostWrite a v (setEvents rest s)
  | .memRead a => hostRead a (setEvents rest s)
  | .engine => engineTurn (setEvents rest s)
  | .poll spins => pollStep spins rest s
  | .reset => resetEvent (setEvents rest s)

/-- A call form (R58): `<name>(n, m, g, inp)` is four operand writes, the write of `CMD`, and a poll. -/
def callForm (i : Instr) (n m g inp : Word) (spins : Nat) : List Event :=
  [wr .n n, wr .m m, wr .g g, wr .inp inp, wr .cmd (encode i), .poll spins]

/-- The harness's uniform signature (R58): the same with `wr CTX, context` in front. -/
def harnessCall (i : Instr) (context n m g inp : Word) (spins : Nat) : List Event :=
  wr .ctx context :: callForm i n m g inp spins

/-- What `withFetchWord` needs of the sequencer: a `CMD` write starts a command in `IDLE` and `DONE` only (R18). -/
def openForCommand (s : State) : State :=
  if s.seq = .busy ∨ s.seq = .fault then { s with seq := .idle, err := .none } else s

end Sys2Proof.Machine
end

