-- ==== Sys2Proof/Machine/Step.lean ====
section
/-! DEFINITION. One step of the machine, and where it finds its next command. The engine fetches no instructions
(R17): a command reaches it as a write of `CMD`, the next event of the run. -/

namespace Sys2Proof.Machine

/-- One step: the next event of the run (R161). When the host has none left, the engine's turn alone remains, and
where that is not enabled the run has ended and nothing changes. -/
def step (s : State) : Host.Outcome State Fault Refusal :=
  match s.events with
  | [] => engineTurn s
  | e :: rest => eventStep e rest s

/-- `s` with a write of the command word `w` (its bits above `nbits` zero) as the next event, and the engine open for
a command. notes/assumptions/5.md. -/
def State.withFetchWord (s : State) (nbits w : Nat) : State :=
  let s := openForCommand s
  { s with events := wr .cmd (BitVec.ofNat 32 (w % 2 ^ nbits)) :: s.events }

end Sys2Proof.Machine
end

