-- ==== Sys2Proof/Safety.lean ====
section
/-! DEFINITION. The vocabulary of the claims: what a safe run is (R161), the closed forms a command's output is compared
with (R71, R90, R106), rounding as the spec words it (R73, R80), and the invariant of the machine. -/

namespace Sys2Proof.Machine

/-! ## Runs -/

/-- `k` steps of the machine, by the host's own `run`. -/
def runSteps (k : Nat) (s : State) : Host.Outcome State Fault Refusal := Host.Core.run Sys2Proof.core k s

/-- The run has ended: the host has no event left and `STATE` is not `BUSY` (R161). -/
def ended (s : State) : Prop := s.events = [] ∧ s.seq ≠ .busy

/-- The run has ended well: `STATE` is `IDLE` or `DONE` (R161). -/
def endedWell (s : State) : Prop := s.events = [] ∧ (s.seq = .idle ∨ s.seq = .done)

/-- `STATE` is `IDLE` or `DONE`, the two values in which the registers may be written and a command started (R18). -/
abbrev openState (s : State) : Prop := s.seq = .idle ∨ s.seq = .done

/-! ## What a command needs of its operands (R122 to R125), in terms of footprints -/

/-- The operands pass the checks every command makes: the size (R122), the range (R123), and no byte in both
footprints (R124). -/
structure OperandsAccepted (s : State) : Prop where
  rows : 5 < s.rows
  cols : 5 < s.cols
  inRange : s.inBase + s.rows * s.cols ≤ memSize
  outRange : s.outBase + s.rows * s.cols ≤ memSize
  disjoint : ∀ a, inFootprint s a = true → outFootprint s a = false

/-- The scratch buffer fits, where the command needs one (R125). -/
def scratchAccepted (i : Instr) (s : State) : Prop :=
  i ≠ .blurFused → s.rows * s.cols ≤ s.params.scratchCap

/-- The condition of each error, whatever other conditions hold (R121 to R125). -/
def errorHolds (cap : Nat) (w : Word) (n m g inp : Nat) : ErrCode → Prop
  | .none => False
  | .illegalCmd => legalWord w = false
  | .precond => n ≤ 5 ∨ m ≤ 5
  | .range => inp + n * m > 2 ^ 32 ∨ g + n * m > 2 ^ 32
  | .aliased => inp < g + n * m ∧ g < inp + n * m
  | .oom => (opField w = 2#8 ∨ opField w = 3#8 ∨ opField w = 4#8) ∧ n * m > cap

/-! ## Closed forms -/

/-- `inp[r][c]` in the memory of `s` (R31). -/
def sampleAt (s : State) (r c : Nat) : Nat := (readByte s.mem (elementAddr s.inBase s.cols r c)).toNat

/-- `s(i, j, d)`, row sum `d` of the window at `(i, j)` (R71). -/
def windowRow (s : State) (i j d : Nat) : Nat :=
  sampleAt s (i + d) j + sampleAt s (i + d) (j + 1) + sampleAt s (i + d) (j + 2) + sampleAt s (i + d) (j + 3) +
    sampleAt s (i + d) (j + 4)

/-- The byte the fused command writes at `(i, j)` (R90). -/
def fusedByte (s : State) (i j : Nat) : Nat :=
  (fusedPx s.params.fusedFp (windowRow s i j 0) (windowRow s i j 1) (windowRow s i j 2) (windowRow s i j 3)
    (windowRow s i j 4)).toNat

/-- The staged result for five row sums (R106): natural-number division only. -/
def stagedPx (s0 s1 s2 s3 s4 : Nat) : Nat := (s0 / 5 + s1 / 5 + s2 / 5 + s3 / 5 + s4 / 5) / 5

/-- The byte the staged command and its aliases write at `(i, j)` (R106). -/
def stagedByte (s : State) (i j : Nat) : Nat :=
  stagedPx (windowRow s i j 0) (windowRow s i j 1) (windowRow s i j 2) (windowRow s i j 3) (windowRow s i j 4)

/-- The byte a command writes at `(i, j)` (R62). -/
def commandByte (i : Instr) (s : State) (r c : Nat) : Nat :=
  match i with
  | .blurFused => fusedByte s r c
  | .blurStaged => stagedByte s r c
  | .computeAtStoreAt => stagedByte s r c
  | .computeAtStoreRoot => stagedByte s r c

/-- `mem` is the memory of `s` with the byte of `OutValid` at each position holding what `value` gives for it, and no other
byte changed (R32, R92, R110). -/
def WritesExactly (s : State) (value : Nat → Nat → Nat) (mem : List Host.Cell) : Prop :=
  (∀ r c, r < s.rows - 4 → c < s.cols - 4 →
      (readByte mem (elementAddr s.outBase s.cols r c)).toNat = value r c) ∧
    ∀ a, outValid s a = false → readByte mem a = readByte s.mem a

/-! ## Rounding, in the rationals -/

/-- The rational a floating-point number stands for. -/
def fpVal (x : Fp) : ℚ := (x.sig : ℚ) * (2 : ℚ) ^ x.exp

/-- A number of the format, of either zero or a full significand; exponents are not bounded (R78). -/
def FpInFormat (fmt : FpFormat) (x : Fp) : Prop :=
  x = { sig := 0, exp := 0 } ∨ (2 ^ (precision fmt - 1) ≤ x.sig ∧ x.sig < 2 ^ precision fmt)

/-- `x` is `q` rounded to nearest, ties to even, in the format (R73): no number of the format is nearer, and where
another is as near, `x` has the even significand. -/
def IsNearestEven (fmt : FpFormat) (q : ℚ) (x : Fp) : Prop :=
  FpInFormat fmt x ∧
    ∀ y, FpInFormat fmt y → |fpVal x - q| ≤ |fpVal y - q| ∧ (|fpVal x - q| = |fpVal y - q| → y = x ∨ x.sig % 2 = 0)

/-- A row mean of the fused path, `r[d]` (R91). -/
def rowMean (fmt : FpFormat) (k : Nat) : Fp := fpDiv fmt (fp fmt k) (fpFive fmt)

/-! ## Free values -/

/-- The free bytes drawn where the bytes of `OutValid` take any value (R151, U4): one for each position, in the order
of R157's schedule, from the `s.drawn`-th on. notes/assumptions/2.md. -/
def drawnByte (s : State) (r c : Nat) : Nat := (Config.freeByte (s.drawn + (r * (s.cols - 4) + c))).toNat

/-- How many bytes `OutValid` has (R70). -/
def validCount (s : State) : Nat := (s.rows - 4) * (s.cols - 4)

/-- `mem'` is `mem` with a free byte, each its own, drawn from the `first`-th on and `count` in all, at the addresses
`which` holds of, and no other byte changed. -/
def FreeExactly (mem : List Host.Cell) (which : Nat → Prop) (first count : Nat) (mem' : List Host.Cell) : Prop :=
  ∃ d : Nat → Nat,
    (∀ a, which a → first ≤ d a ∧ d a < first + count ∧ readByte mem' a = Config.freeByte (d a)) ∧
    (∀ a b, which a → which b → d a = d b → a = b) ∧
    ∀ a, ¬ which a → readByte mem' a = readByte mem a

/-- `which` holds of the address of a byte exactly where the last of the commands completed unseen to have written it is
touched, or has read a byte that was so before it; and of no address that none of them has written. -/
def LastWriterDecides (touches : State → Bool) (s : State) (which : Nat → Bool) : Prop :=
  (∀ b, (∀ o ∈ s.unseen, outValid (useOperands o s) b = false) → which b = false) ∧
    ∀ pre post o, s.unseen = pre ++ o :: post → ∀ b, outValid (useOperands o s) b = true →
      (∀ p ∈ post, outValid (useOperands p s) b = false) →
      (touches (useOperands o s) = true → which b = true) ∧
      (touches (useOperands o s) = false →
        (which b = true ↔ ∃ c, inFootprint (useOperands o s) c = true ∧
          spoilAll touches s pre (fun _ => false) c = true))

/-! ## The invariant -/

/-- What holds of the machine in every reachable state. -/
structure Inv (s : State) : Prop where
  /-- Memory keeps its canonical form. -/
  mem : Memory.wf s.mem
  /-- Every scratch byte is `UNDEF` between steps (R20, R101, R105). -/
  scr : s.scr = []
  /-- `ERRCODE != 0` exactly when `STATE = FAULT` (R15). -/
  err : s.err ≠ .none ↔ s.seq = .fault
  /-- In `IDLE` no command has been taken since reset (R17, R24). -/
  idle : s.seq = .idle → s.cmd = 0#32
  /-- A running command has passed every check (R60). -/
  busy : s.seq = .busy → s.firstError s.cmd = .none
  /-- In `DONE` the last command taken was a legal one (R55, R60). -/
  done : s.seq = .done → legalWord s.cmd = true
  /-- In `FAULT` the frozen registers still show the error (R18, R120). -/
  fault : s.seq = .fault → s.firstError s.cmd = s.err
  /-- A violation of R153 is one of the running command. -/
  tainted : s.tainted = true → s.seq = .busy
  /-- A command that has completed unseen had operands that every command accepts (R60, R129). -/
  unseen : ∀ o ∈ s.unseen, OperandsAccepted (useOperands o s)
  /-- An engine that has run no command since reset has none the host has not seen complete (R150). -/
  idleUnseen : s.seq = .idle → s.unseen = []

end Sys2Proof.Machine
end

