-- ==== Sys2Proof/Certificates/Slice0/Obligations.lean ====
section
/-! DEFINITION. The statements for the provers. Each docstring names the rule of spec/ it formalises, or the log entry
whose choice it states. A statement about what a command or an event does is an equation for the whole next state: a
field the right-hand side does not name is unchanged. The mark `tainted` that START, COMPLETE and reset clear is the
model's own field (log entry 9), as are `events`, `out`, `params`, `drawn` and `unseen` (log entries 6, 14, 1, 2, 16). -/

open Sys2Proof Sys2Proof.Machine

/-! ## Encoding -/

/-- R55, R53: a word decodes to a command exactly where it is that command's word; a word with a reserved bit set, and
a word with an unassigned `OP`, are rejected, each by name. -/
def Obligations.DecodeAcceptsExactlyTheCommandWords : Prop :=
  ∀ w : Word,
    (∀ i, decode w = .ok i ↔ w = encode i) ∧
    (decode w = .error .reservedBitSet ↔ w.extractLsb' 8 24 ≠ 0#24) ∧
    (∀ op, decode w = .error (.reservedOp op) ↔
      w.extractLsb' 8 24 = 0#24 ∧ op = w.extractLsb' 0 8 ∧ (op = 0#8 ∨ 5#8 ≤ op))

/-- From R53 and R55: the four full words of R53's table and the commands they stand for, both ways, and in the opcode
table's numbering; the word zero decodes to no command. -/
def Obligations.TableWordsDecodeToTheirCommands : Prop :=
  (decode 0x00000001#32 = .ok .blurFused ∧ decode 0x00000002#32 = .ok .blurStaged ∧
    decode 0x00000003#32 = .ok .computeAtStoreAt ∧ decode 0x00000004#32 = .ok .computeAtStoreRoot) ∧
  decode 0x00000000#32 = .error (.reservedOp 0x00#8) ∧
  ∀ i, decode (encode i) = .ok i ∧ decodeTableWord 32 (encode i).toNat = some i

/-! ## The register port -/

/-- R16: a read of an index returns that register, in every value of `STATE`, and changes nothing but what the host has
been told: `out`, and, where `STATUS` is read as `DONE` (R153), `unseen`, two fields of the model's own. -/
def Obligations.RegisterReadReturnsTheRegister : Prop :=
  ∀ (s : State) (t : Transaction) (rest : List Event), s.events = .port t :: rest → t.we = false →
    ∃ v, step s = .next { s with
        events := rest, out := s.out ++ [.reg (Reg.ofIdx t.idx) v],
        unseen := if t.idx = 6#3 ∧ s.seq = .done then [] else s.unseen } ∧
      v = (match t.idx.toNat with
        | 0 => s.ctx
        | 1 => s.n
        | 2 => s.m
        | 3 => s.g
        | 4 => s.inp
        | 5 => s.cmd
        | 6 => s.seq.code.setWidth 32
        | _ => s.err.code.setWidth 32)

/-- R14: `STATUS` is read-only in every state, and reads as `STATE` in its two low bits with zeros above. A read that
returns `DONE` ends the hands-off window of every completed command (R153, `unseen`, log entry 16). -/
def Obligations.StatusReadsStateAndDropsWrites : Prop :=
  ∀ (s : State) (rest : List Event),
    (s.events = rd .status :: rest →
      ∃ v : Word, step s = .next { s with
          events := rest, out := s.out ++ [.reg .status v],
          unseen := if v.extractLsb' 0 2 = 2#2 then [] else s.unseen } ∧
        v.extractLsb' 2 30 = 0#30 ∧ (v.extractLsb' 0 2 = 0#2 ↔ s.seq = .idle) ∧
        (v.extractLsb' 0 2 = 1#2 ↔ s.seq = .busy) ∧ (v.extractLsb' 0 2 = 2#2 ↔ s.seq = .done) ∧
        (v.extractLsb' 0 2 = 3#2 ↔ s.seq = .fault)) ∧
    ∀ v, s.events = wr .status v :: rest → step s = .next { s with events := rest }

/-- R15, R120: `ERR` is read-only in every state, and reads as the code of the error taken, zeros above. -/
def Obligations.ErrReadsErrorCodeAndDropsWrites : Prop :=
  ∀ (s : State) (rest : List Event),
    (s.events = rd .err :: rest →
      ∃ v : Word, step s = .next { s with events := rest, out := s.out ++ [.reg .err v] } ∧
        (v = 0#32 ↔ s.err = .none) ∧ (v = 1#32 ↔ s.err = .illegalCmd) ∧ (v = 2#32 ↔ s.err = .precond) ∧
        (v = 3#32 ↔ s.err = .range) ∧ (v = 4#32 ↔ s.err = .aliased) ∧ (v = 5#32 ↔ s.err = .oom)) ∧
    ∀ v, s.events = wr .err v :: rest → step s = .next { s with events := rest }

/-- R18: the effect of a register write, by state and index. A write of `CMD` in `IDLE` or `DONE` stores the word and
is the START step, which ends in `BUSY` or `FAULT`. -/
def Obligations.RegisterWriteByState : Prop :=
  ∀ (s : State) (t : Transaction) (rest : List Event), s.events = .port t :: rest → t.we = true →
    ((s.seq = .busy ∨ s.seq = .fault) → step s = .next { s with events := rest }) ∧
    (openState s →
      (t.idx = 0#3 → step s = .next { s with events := rest, ctx := t.wdata }) ∧
      (t.idx = 1#3 → step s = .next { s with events := rest, n := t.wdata }) ∧
      (t.idx = 2#3 → step s = .next { s with events := rest, m := t.wdata }) ∧
      (t.idx = 3#3 → step s = .next { s with events := rest, g := t.wdata }) ∧
      (t.idx = 4#3 → step s = .next { s with events := rest, inp := t.wdata }) ∧
      (t.idx = 5#3 → step s = .next (start t.wdata { s with events := rest })) ∧
      (t.idx = 6#3 ∨ t.idx = 7#3 → step s = .next { s with events := rest }))

/-- A step runs the decoded command. From R60, R18: where the next event writes a command's word to `CMD` in `IDLE` or
`DONE`, the step is `exec` of that command on the state with the event taken. From R61, R17: in `BUSY` the engine's step
is `exec` of the command in `CMD`; that it falls at an `.engine` event, where no event is left, and at a poll with no read
left, is the model's choice (log entry 6). That a state prepared by `withFetchWord` runs the word's command next is the
model's choice too (log entry 5). -/
def Obligations.StepRunsTheDecodedCommand : Prop :=
  ∀ (s : State) (i : Instr),
    (∀ w rest, openState s → decode w = .ok i → s.events = wr .cmd w :: rest →
      step s = exec i { s with events := rest }) ∧
    (s.seq = .busy → decodeOp (opField s.cmd) = some i →
      (s.events = [] → step s = exec i s) ∧
      (∀ rest, s.events = .engine :: rest → step s = exec i { s with events := rest }) ∧
      (∀ rest, s.events = .poll 0 :: rest → step s = exec i s)) ∧
    step (s.withFetchWord 32 (encode i).toNat) = exec i (openForCommand s)

/-! ## START and the errors -/

/-- From R60 and R18: START. A word written to `CMD` in `IDLE` or `DONE` is stored and checked; the first error, if any, is raised;
else `STATE` becomes `BUSY`; no memory is touched. In `BUSY` and `FAULT` the write is dropped. -/
def Obligations.CmdWriteIsStart : Prop :=
  ∀ (s : State) (w : Word) (rest : List Event), s.events = wr .cmd w :: rest →
    (openState s → s.firstError w = .none →
      step s = .next { s with events := rest, cmd := w, tainted := false, seq := .busy }) ∧
    (openState s → s.firstError w ≠ .none →
      step s = .next { s with events := rest, cmd := w, tainted := false, err := s.firstError w, seq := .fault }) ∧
    (¬ openState s → step s = .next { s with events := rest })

/-- R126: the error reported is the one with the lowest code of those whose condition holds, and none where no
condition holds. -/
def Obligations.FirstErrorIsTheLowestCode : Prop :=
  ∀ (cap : Nat) (w : Word) (n m g inp : Nat),
    (firstError cap w n m g inp = .none ↔ ∀ e, ¬ errorHolds cap w n m g inp e) ∧
    (firstError cap w n m g inp ≠ .none →
      errorHolds cap w n m g inp (firstError cap w n m g inp) ∧
      ∀ e, errorHolds cap w n m g inp e → (firstError cap w n m g inp).code.toNat ≤ e.code.toNat)

/-- R121: a word with a reserved bit set, or whose `OP` is not one of the four, faults with `ERR_ILLEGAL_CMD`, whatever
the operands. -/
def Obligations.IllegalWordFaults : Prop :=
  ∀ (s : State) (w : Word) (rest : List Event), s.events = wr .cmd w :: rest → openState s →
    (w.extractLsb' 8 24 ≠ 0#24 ∨ w.extractLsb' 0 8 = 0#8 ∨ 5#8 ≤ w.extractLsb' 0 8) →
    step s = .next { s with events := rest, cmd := w, tainted := false, err := .illegalCmd, seq := .fault }

/-- R60, R122 to R125: a command whose operands are accepted, and whose scratch buffer fits where it needs one, enters
`BUSY`. `blur_fused` needs none, whatever the capacity. -/
def Obligations.AcceptedCommandEntersBusy : Prop :=
  ∀ (i : Instr) (s : State), openState s → OperandsAccepted s → scratchAccepted i s →
    exec i s = .next { s with cmd := encode i, tainted := false, seq := .busy }

/-- R122: fewer than six rows or columns is the precondition violation, for every command. -/
def Obligations.PrecondViolationFaults : Prop :=
  ∀ (i : Instr) (s : State), openState s → (s.n.toNat ≤ 5 ∨ s.m.toNat ≤ 5) →
    exec i s = .next { s with cmd := encode i, tainted := false, err := .precond, seq := .fault }

/-- R123: a buffer that extends beyond address `2^32 - 1`, for every command; and where none does, no address of an
element reaches `2^32`. -/
def Obligations.RangeViolationFaults : Prop :=
  (∀ (i : Instr) (s : State), openState s → 5 < s.n.toNat → 5 < s.m.toNat →
    (s.inp.toNat + s.n.toNat * s.m.toNat > 2 ^ 32 ∨ s.g.toNat + s.n.toNat * s.m.toNat > 2 ^ 32) →
    exec i s = .next { s with cmd := encode i, tainted := false, err := .range, seq := .fault }) ∧
  ∀ (s : State) (r c : Nat), ¬ (s.inp.toNat + s.n.toNat * s.m.toNat > 2 ^ 32 ∨
      s.g.toNat + s.n.toNat * s.m.toNat > 2 ^ 32) → r < s.n.toNat → c < s.m.toNat →
    elementAddr s.inp.toNat s.m.toNat r c ≤ 2 ^ 32 - 1 ∧ elementAddr s.g.toNat s.m.toNat r c ≤ 2 ^ 32 - 1

/-- R124: footprints that share at least one byte, for every command. -/
def Obligations.SharedByteFaults : Prop :=
  ∀ (i : Instr) (s : State), openState s → 5 < s.n.toNat → 5 < s.m.toNat →
    s.inp.toNat + s.n.toNat * s.m.toNat ≤ 2 ^ 32 → s.g.toNat + s.n.toNat * s.m.toNat ≤ 2 ^ 32 →
    (∃ a, inFootprint s a = true ∧ outFootprint s a = true) →
    exec i s = .next { s with cmd := encode i, tainted := false, err := .aliased, seq := .fault }

/-- R125: a scratch buffer of `n*m` bytes that does not fit, for `blur_staged` and its two aliases; `blur_fused` never
raises this error; and with a capacity below 36 no staged command can ever run. -/
def Obligations.ScratchTooSmallFaults : Prop :=
  (∀ (i : Instr) (s : State), openState s → OperandsAccepted s → i ≠ .blurFused →
    s.n.toNat * s.m.toNat > s.params.scratchCap →
    exec i s = .next { s with cmd := encode i, tainted := false, err := .oom, seq := .fault }) ∧
  (∀ s t : State, openState s → exec .blurFused s = .next t → t.seq = .fault → t.err ≠ .oom) ∧
  ∀ (i : Instr) (s : State), openState s → i ≠ .blurFused → s.params.scratchCap < 36 →
    ∃ t, exec i s = .next t ∧ t.seq = .fault

/-- R128: in `FAULT` every register write is dropped and no command does anything, reads work, no event but reset
changes a register, `ERRCODE`, `STATE` or the scratch memory, and reset leaves it with everything at its reset value. -/
def Obligations.FaultIsLeftByResetOnly : Prop :=
  ∀ s : State, s.seq = .fault →
    (∀ i, exec i s = .next s) ∧
    (∀ t rest, s.events = .port t :: rest → t.we = true → step s = .next { s with events := rest }) ∧
    (∀ t rest, s.events = .port t :: rest → t.we = false → ∃ v,
      step s = .next { s with events := rest, out := s.out ++ [.reg (Reg.ofIdx t.idx) v] }) ∧
    (∀ t, step s = .next t → (∃ rest, s.events = .reset :: rest) ∨
      (t.ctx = s.ctx ∧ t.n = s.n ∧ t.m = s.m ∧ t.g = s.g ∧ t.inp = s.inp ∧ t.cmd = s.cmd ∧ t.err = s.err ∧
        t.seq = .fault ∧ t.scr = s.scr ∧ t.params = s.params)) ∧
    (∀ rest, s.events = .reset :: rest → step s = .next { s with
      events := rest, ctx := 0#32, n := 0#32, m := 0#32, g := 0#32, inp := 0#32, cmd := 0#32, err := .none, seq := .idle,
      scr := [], tainted := false, unseen := [] })

/-! ## COMPLETE -/

/-- R90, R92: COMPLETE of `blur_fused` writes the fused byte at every position of the valid region and changes no other
byte; the scratch memory is undefined, `STATE` is `DONE`, and nothing else of the machine changes. The host has kept its
hands off, and is to keep them off until it reads `DONE` (R153, `unseen`). -/
def Obligations.FusedCompletes : Prop :=
  ∀ s : State, s.seq = .busy → s.tainted = false → OperandsAccepted s →
    ∃ mem, exec .blurFused s = .next
        { s with mem := mem, scr := [], seq := .done, unseen := s.unseen ++ [s.operands] } ∧
      WritesExactly s (fusedByte s) mem

/-- R100, R106, R110: COMPLETE of `blur_staged` writes the closed form at every position of the valid region and
changes no other byte; no `UNDEF` scratch byte is read (R107), since the command answers. -/
def Obligations.StagedCompletes : Prop :=
  ∀ s : State, s.seq = .busy → s.tainted = false → OperandsAccepted s →
    s.rows * s.cols ≤ s.params.scratchCap →
    ∃ mem, exec .blurStaged s = .next
        { s with mem := mem, scr := [], seq := .done, unseen := s.unseen ++ [s.operands] } ∧
      WritesExactly s (stagedByte s) mem

/-- R115: `compute_at_store_at` completes as `blur_staged` does, with the same errors at START, and `CMD` reads 3. -/
def Obligations.ComputeAtStoreAtIsStaged : Prop :=
  ∀ s : State,
    (s.seq = .busy → s.tainted = false → OperandsAccepted s → s.rows * s.cols ≤ s.params.scratchCap →
      ∃ mem, exec .computeAtStoreAt s = .next
          { s with mem := mem, scr := [], seq := .done, unseen := s.unseen ++ [s.operands] } ∧
        exec .blurStaged s = .next
          { s with mem := mem, scr := [], seq := .done, unseen := s.unseen ++ [s.operands] } ∧
        WritesExactly s (stagedByte s) mem) ∧
    (openState s → ∃ t, exec .blurStaged s = .next t ∧ exec .computeAtStoreAt s = .next { t with cmd := 3#32 })

/-- R116: `compute_at_store_root` completes as `blur_staged` does, with the same errors at START, and `CMD` reads 4. -/
def Obligations.ComputeAtStoreRootIsStaged : Prop :=
  ∀ s : State,
    (s.seq = .busy → s.tainted = false → OperandsAccepted s → s.rows * s.cols ≤ s.params.scratchCap →
      ∃ mem, exec .computeAtStoreRoot s = .next
          { s with mem := mem, scr := [], seq := .done, unseen := s.unseen ++ [s.operands] } ∧
        exec .blurStaged s = .next
          { s with mem := mem, scr := [], seq := .done, unseen := s.unseen ++ [s.operands] } ∧
        WritesExactly s (stagedByte s) mem) ∧
    (openState s → ∃ t, exec .blurStaged s = .next t ∧ exec .computeAtStoreRoot s = .next { t with cmd := 4#32 })

/-- R102: the horizontal pass fills the first `m-4` columns of every scratch row with the truncated means of the input,
leaves every other scratch byte `UNDEF`, and writes no byte of `Mem`. -/
def Obligations.ProducerFillsTheScratchRows : Prop :=
  ∀ s : State, s.rows * s.cols ≤ s.params.scratchCap → s.inBase + s.rows * s.cols ≤ memSize →
    ∃ scr, producer (acquire s) = .ok { s with scr := scr } ∧
      (∀ r c, r < s.rows → c < s.cols - 4 →
        lookupCell scr (elementAddr 0 s.cols r c) = some (BitVec.ofNat 8 (windowRow s r c 0 / 5))) ∧
      (∀ r c, r < s.rows → c < s.cols → s.cols - 4 ≤ c → lookupCell scr (elementAddr 0 s.cols r c) = none) ∧
      ∀ k, s.rows * s.cols ≤ k → lookupCell scr k = none

/-- R11, R13, R15, R22: a command never writes an operand register, `CTX` or `CMD` but at START, where `CMD` takes its
word; it takes no event, answers no read, writes `ERRCODE` only where it enters `FAULT`, and joins the commands the host
has not seen complete at COMPLETE only (log entry 16). -/
def Obligations.CommandFrame : Prop :=
  ∀ (i : Instr) (s t : State), exec i s = .next t →
    t.ctx = s.ctx ∧ t.n = s.n ∧ t.m = s.m ∧ t.g = s.g ∧ t.inp = s.inp ∧ t.params = s.params ∧
    t.events = s.events ∧ t.out = s.out ∧
    (t.cmd = s.cmd ∨ (openState s ∧ t.cmd = encode i)) ∧
    (t.err = s.err ∨ (openState s ∧ t.seq = .fault)) ∧
    (t.drawn = s.drawn ∨ (s.seq = .busy ∧ s.tainted = true)) ∧
    t.unseen = (if s.seq = .busy then s.unseen ++ [s.operands] else s.unseen) ∧
    (s.seq ≠ .busy → t.mem = s.mem ∧ t.scr = s.scr) ∧
    (∀ a, outValid s a = false → readByte t.mem a = readByte s.mem a)

/-- R12: no command's result or error depends on `CTX`. -/
def Obligations.ContextIsIgnored : Prop :=
  ∀ (i : Instr) (s : State) (c : Word),
    (∀ t, exec i s = .next t → exec i { s with ctx := c } = .next { t with ctx := c }) ∧
    ∀ f, exec i s = .fault f → exec i { s with ctx := c } = .fault f

/-- From R22 and R109: two completions of a command with equal operands and equal input bytes write equal output bytes, whatever else
differs: the rest of memory, the scratch memory, the other registers, the capacity. -/
def Obligations.OutputDependsOnOperandsAndInputOnly : Prop :=
  ∀ (i : Instr) (s s' : State), s.seq = .busy → s'.seq = .busy → s.tainted = false → s'.tainted = false →
    OperandsAccepted s → scratchAccepted i s → scratchAccepted i s' →
    s'.n = s.n → s'.m = s.m → s'.g = s.g → s'.inp = s.inp → s'.params.fusedFp = s.params.fusedFp →
    (∀ a, inFootprint s a = true → readByte s'.mem a = readByte s.mem a) →
    ∃ t t', exec i s = .next t ∧ exec i s' = .next t' ∧
      ∀ a, outValid s a = true → readByte t'.mem a = readByte t.mem a

/-- From R43 and R132: commands on two engines that share a memory, with the output footprint of each disjoint from both
footprints of the other, give in either order the results each gives alone. R43 speaks of commands "at the same time";
reading that as two whole COMPLETE steps, one after the other in either order (log entry 7), over two states that hold
one memory (log entry 10), is the model's choice. -/
def Obligations.DisjointEnginesDoNotInterfere : Prop :=
  ∀ (i j : Instr) (a b : State), a.seq = .busy → b.seq = .busy → a.tainted = false → b.tainted = false →
    OperandsAccepted a → OperandsAccepted b → scratchAccepted i a → scratchAccepted j b → b.mem = a.mem →
    (∀ x, outFootprint a x = true → inFootprint b x = false ∧ outFootprint b x = false) →
    (∀ x, outFootprint b x = true → inFootprint a x = false ∧ outFootprint a x = false) →
    ∃ ta tb tab tba, exec i a = .next ta ∧ exec j b = .next tb ∧
      exec j { b with mem := ta.mem } = .next tab ∧ exec i { a with mem := tb.mem } = .next tba ∧
      ∀ x, readByte tab.mem x = readByte tba.mem x ∧
        (outValid a x = true → readByte tab.mem x = readByte ta.mem x) ∧
        (outValid b x = true → readByte tab.mem x = readByte tb.mem x) ∧
        (outValid a x = false → outValid b x = false → readByte tab.mem x = readByte a.mem x)

/-! ## Hands off, reset -/

/-- U4, R153 (free values, log entry 2): where the host has broken the hands-off rule, COMPLETE leaves a free byte at
every position of the valid region, each its own, and changes no other byte. -/
def Obligations.TaintedCompletionLeavesFreeBytes : Prop :=
  ∀ (i : Instr) (s : State), s.seq = .busy → s.tainted = true → OperandsAccepted s →
    ∃ mem, exec i s = .next
        { s with
          mem := mem, scr := [], seq := .done, tainted := false, drawn := s.drawn + validCount s,
          unseen := s.unseen ++ [s.operands] } ∧
      WritesExactly s (drawnByte s) mem

/-- R150: reset outside `BUSY` sets every register to 0, `STATE` to `IDLE`, `ERRCODE` to 0 and the scratch memory to
`UNDEF`, and changes no byte of `Mem`. -/
def Obligations.ResetSetsTheRegisters : Prop :=
  ∀ (s : State) (rest : List Event), s.events = .reset :: rest → s.seq ≠ .busy →
    step s = .next { s with
      events := rest, ctx := 0#32, n := 0#32, m := 0#32, g := 0#32, inp := 0#32, cmd := 0#32, err := .none, seq := .idle,
      scr := [], tainted := false, unseen := [] }

/-- R151, U7 (free values, log entry 2): reset in `BUSY` abandons the command: every byte of `OutValid` holds a free
byte, each its own, every other byte is unchanged, and the registers take their reset values. -/
def Obligations.ResetInBusyAbandonsTheCommand : Prop :=
  ∀ (s : State) (rest : List Event), s.events = .reset :: rest → s.seq = .busy → OperandsAccepted s →
    ∃ mem, step s = .next { s with
        events := rest, ctx := 0#32, n := 0#32, m := 0#32, g := 0#32, inp := 0#32, cmd := 0#32, err := .none,
        seq := .idle, scr := [], tainted := false, unseen := [], mem := mem, drawn := s.drawn + validCount s } ∧
      WritesExactly s (drawnByte s) mem

/-- R24: after reset all eight registers read zero, the scratch memory is `UNDEF`, and a command started before the
host has written the operands faults on the precondition and touches no memory. -/
def Obligations.ResetStateReadsZero : Prop :=
  (∀ r, readReg r State.reset = 0#32) ∧ State.reset.seq = .idle ∧ State.reset.err = .none ∧ State.reset.unseen = [] ∧
    (∀ k, lookupCell State.reset.scr k = none) ∧
    ∀ i, ∃ t, exec i State.reset = .next t ∧ t.seq = .fault ∧ t.err = .precond ∧ t.mem = State.reset.mem

/-! ## The host's accesses to memory -/

/-- From R30 and R153: outside `BUSY` a byte the host stores is the byte read there afterwards and no other byte changes,
where the store is to no footprint of a completed command whose `DONE` the host has not read; a load from outside the
output footprints of those returns the byte and changes nothing. -/
def Obligations.HostAccessOutsideBusy : Prop :=
  ∀ (s : State) (a : Word) (rest : List Event), s.seq ≠ .busy →
    (∀ v, s.events = .memWrite a v :: rest →
      (∀ o ∈ s.unseen, inFootprint (useOperands o s) a.toNat = false ∧ outFootprint (useOperands o s) a.toNat = false) →
      ∃ mem, step s = .next { s with events := rest, mem := mem } ∧
        ∀ b, readByte mem b = if b = a.toNat then v else readByte s.mem b) ∧
    (s.events = .memRead a :: rest → (∀ o ∈ s.unseen, outFootprint (useOperands o s) a.toNat = false) →
      step s = .next { s with events := rest, out := s.out ++ [.byte a (readByte s.mem a.toNat)] })

/-- R153, R39, U4 (free values, log entries 2, 9): in `BUSY`, at no footprint of an earlier command that the host has not
seen complete, the host may load any byte outside the output footprint and store any byte outside both; a store to a
footprint is remembered as a violation; a load from the output footprint is too, and returns a free byte. -/
def Obligations.HostAccessInBusy : Prop :=
  ∀ (s : State) (a : Word) (rest : List Event), s.seq = .busy →
    (∀ v, s.events = .memWrite a v :: rest →
      (∀ o ∈ s.unseen, inFootprint (useOperands o s) a.toNat = false ∧ outFootprint (useOperands o s) a.toNat = false) →
      ∃ mem, step s = .next { s with
          events := rest, mem := mem,
          tainted := s.tainted || inFootprint s a.toNat || outFootprint s a.toNat } ∧
        ∀ b, readByte mem b = if b = a.toNat then v else readByte s.mem b) ∧
    (s.events = .memRead a :: rest → (∀ o ∈ s.unseen, outFootprint (useOperands o s) a.toNat = false) →
      (outFootprint s a.toNat = false →
        step s = .next { s with events := rest, out := s.out ++ [.byte a (readByte s.mem a.toNat)] }) ∧
      (outFootprint s a.toNat = true →
        step s = .next { s with
          events := rest, out := s.out ++ [.byte a (Config.freeByte s.drawn)], drawn := s.drawn + 1,
          tainted := true }))

/-- R153, U4 (free values, log entries 2, 9, 16): a store to a footprint of a command that has completed, but whose `DONE`
no read of `STATUS` has returned, leaves a free byte at each address it makes unspecified, and no other byte changes but
the one stored. An address is so where the last of these commands to have written it is one the store touches; and,
inferred from R22 (log entry 16), where that command has read a byte unspecified at an earlier one. -/
def Obligations.HostStoreBeforeDoneIsRead : Prop :=
  ∀ (s : State) (a : Word) (v : Byte) (rest : List Event), s.events = .memWrite a v :: rest →
    (∀ o ∈ s.unseen, OperandsAccepted (useOperands o s)) →
    (∃ o ∈ s.unseen, inFootprint (useOperands o s) a.toNat = true ∨ outFootprint (useOperands o s) a.toNat = true) →
    (∃ mem count, step s = .next { s with
        events := rest, mem := mem, drawn := s.drawn + count,
        tainted := s.tainted || (decide (s.seq = .busy) && (inFootprint s a.toNat || outFootprint s a.toNat)) } ∧
      FreeExactly (setByte s.mem a.toNat v) (fun b => spoiled (storeTouches a.toNat) s b = true) s.drawn count mem) ∧
    LastWriterDecides (fun u => inFootprint u a.toNat || outFootprint u a.toNat) s (spoiled (storeTouches a.toNat) s)

/-- R153, R39, U4 (free values, log entries 2, 9, 16): a load from the output footprint of a command that has completed,
but whose `DONE` no read of `STATUS` has returned, returns a free byte, leaves a free byte at each address it makes
unspecified, as a store does, and changes no other byte. -/
def Obligations.HostLoadBeforeDoneIsRead : Prop :=
  ∀ (s : State) (a : Word) (rest : List Event), s.events = .memRead a :: rest →
    (∀ o ∈ s.unseen, OperandsAccepted (useOperands o s)) →
    (∃ o ∈ s.unseen, outFootprint (useOperands o s) a.toNat = true) →
    (∃ mem count, step s = .next { s with
        events := rest, mem := mem, out := s.out ++ [.byte a (Config.freeByte s.drawn)],
        drawn := s.drawn + 1 + count,
        tainted := s.tainted || (decide (s.seq = .busy) && outFootprint s a.toNat) } ∧
      FreeExactly s.mem (fun b => spoiled (loadTouches a.toNat) s b = true) (s.drawn + 1) count mem) ∧
    LastWriterDecides (fun u => outFootprint u a.toNat) s (spoiled (loadTouches a.toNat) s)

/-- From R39 (b): whatever byte the host stores or loads, a completed command whose `DONE` it has not read keeps its
results, where the access is one R153 allows during that command, it has read no byte of the `OutValid` of an earlier such
command, and no later such command has written over it. -/
def Obligations.UntouchedCommandKeepsItsResults : Prop :=
  ∀ (s t : State) (e : Event) (a : Word) (rest : List Event) (pre post : List Operands) (o : Operands),
    s.events = e :: rest →
    ((∃ v, e = .memWrite a v ∧ inFootprint (useOperands o s) a.toNat = false) ∨ e = .memRead a) →
    outFootprint (useOperands o s) a.toNat = false → step s = .next t → s.unseen = pre ++ o :: post →
    (∀ p ∈ pre, ∀ b, inFootprint (useOperands o s) b = true → outValid (useOperands p s) b = false) →
    ∀ b, outValid (useOperands o s) b = true → (∀ p ∈ post, outValid (useOperands p s) b = false) →
      readByte t.mem b = readByte s.mem b

/-- From R39 (b): where the host has kept its hands off, COMPLETE, then a read of `STATUS`, which returns `DONE`, then a
load from `OutValid`, returns the byte the command wrote, whatever commands had completed unseen before. -/
def Obligations.LoadAfterDoneReturnsTheResult : Prop :=
  ∀ (i : Instr) (s : State) (a : Word) (r c : Nat) (rest : List Event), s.seq = .busy → s.tainted = false →
    s.cmd = encode i → OperandsAccepted s → scratchAccepted i s → r < s.rows - 4 → c < s.cols - 4 →
    a.toNat = elementAddr s.outBase s.cols r c → s.events = .engine :: rd .status :: .memRead a :: rest →
    ∃ mem v, runSteps 3 s = .next { s with
        mem := mem, scr := [], seq := .done, unseen := [], events := rest,
        out := s.out ++ [.reg .status 2#32, .byte a v] } ∧
      v.toNat = commandByte i s r c ∧ WritesExactly s (commandByte i s) mem

/-- R161, R32: a byte of memory that a step changes is one the host stores to in that step; or a byte of `OutValid` of
the command that the step ends; or, where the host's access of that step breaks the hands-off rule (R153, log entry 16),
a byte of `OutValid` of a completed command whose `DONE` it has not read. -/
def Obligations.MemoryChangesOnlyByHostOrInOutValid : Prop :=
  ∀ (s t : State) (a : Nat), step s = .next t → readByte t.mem a ≠ readByte s.mem a →
    (∃ b v rest, s.events = .memWrite b v :: rest ∧ b.toNat = a) ∨
      (s.seq = .busy ∧ t.seq ≠ .busy ∧ outValid s a = true) ∨
      ((∃ o ∈ s.unseen, outValid (useOperands o s) a = true) ∧
        ((∃ b v rest, s.events = .memWrite b v :: rest ∧ touchesUnseen (storeTouches b.toNat) s = true) ∨
          ∃ b rest, s.events = .memRead b :: rest ∧ touchesUnseen (loadTouches b.toNat) s = true))

/-! ## The sequencer and the invariant -/

/-- R17: `STATE` changes by START from `IDLE` or `DONE` to `BUSY` or `FAULT`, by COMPLETE from `BUSY` to `DONE`, by
reset to `IDLE`, and in no other way. -/
def Obligations.SequencerTransitions : Prop :=
  ∀ s t : State, step s = .next t → t.seq ≠ s.seq →
    (openState s ∧ (t.seq = .busy ∨ t.seq = .fault) ∧ ∃ w rest, s.events = wr .cmd w :: rest) ∨
    (s.seq = .busy ∧ t.seq = .done ∧
      (s.events = [] ∨ (∃ rest, s.events = .engine :: rest) ∨ ∃ rest, s.events = .poll 0 :: rest)) ∨
    (t.seq = .idle ∧ ∃ rest, s.events = .reset :: rest)

/-- R61, R161: outside `BUSY` the engine has no step of its own: a turn given to it changes nothing, and a run with no
event left has ended and stays as it is. -/
def Obligations.EngineHasNoStepOutsideBusy : Prop :=
  ∀ s : State, s.seq ≠ .busy →
    (∀ rest, s.events = .engine :: rest → step s = .next { s with events := rest }) ∧
    (s.events = [] → ended s ∧ step s = .next s ∧ (endedWell s ↔ s.seq ≠ .fault))

/-- R57 (the count of reads is the model's, log entry 6): a poll reads `STATUS`; it is over where the read shows `DONE`
or `FAULT`, stays where it shows `IDLE`, and has one read fewer to go where it shows `BUSY`. The read that shows `DONE`
ends the hands-off window of every completed command (R153). -/
def Obligations.PollReadsStatusUntilDoneOrFault : Prop :=
  ∀ (s : State) (spins : Nat) (rest : List Event), s.events = .poll spins :: rest →
    (s.seq = .done → step s = .next { s with events := rest, out := s.out ++ [.reg .status 2#32], unseen := [] }) ∧
    (s.seq = .fault → step s = .next { s with events := rest, out := s.out ++ [.reg .status 3#32] }) ∧
    (s.seq = .idle → step s = .next { s with out := s.out ++ [.reg .status 0#32] }) ∧
    (s.seq = .busy → ∀ k, spins = k + 1 →
      step s = .next { s with events := .poll k :: rest, out := s.out ++ [.reg .status 1#32] })

/-- The invariant holds right after reset. -/
def Obligations.InvariantHoldsAtReset : Prop := Inv State.reset

/-- Every step keeps the invariant (R15, R17, R18, R20, R60, R120; the canonical form of memory, the mark of a violation
and the commands not yet seen complete are the model's own, log entries 3, 9 and 16). -/
def Obligations.EveryStepKeepsTheInvariant : Prop :=
  ∀ s t : State, Inv s → step s = .next t → Inv t

/-- R129: from a state of the invariant no step stops: no address is out of range, no scratch index either, and no
`UNDEF` byte is read. -/
def Obligations.NoStepStops : Prop :=
  ∀ s : State, Inv s → ∃ t, step s = .next t

/-! ## The datapath -/

/-- R74: `fp(k)` equals `k` in both formats. R75: the encodings of `FIVE`. -/
def Obligations.IntegersAreExact : Prop :=
  (∀ (fmt : FpFormat) (k : Nat), k ≤ 1275 → FpInFormat fmt (fp fmt k) ∧ fpVal (fp fmt k) = k) ∧
    fpVal (fpFive .binary64) = 5 ∧ fpBits .binary64 (fpFive .binary64) = 0x4014000000000000 ∧
    fpVal (fpFive .binary32) = 5 ∧ fpBits .binary32 (fpFive .binary32) = 0x40A00000

/-- From R76: `fp_div(a, FIVE)` is the real quotient `a / 5` rounded to nearest, ties to even. R78 bounds the
numbers a command forms; that the rule holds of every `Fp`, with no bound on the exponent, is the model's (log entry 4). -/
def Obligations.DivisionByFiveRoundsToNearestEven : Prop :=
  ∀ (fmt : FpFormat) (a : Fp), IsNearestEven fmt (fpVal a / 5) (fpDiv fmt a (fpFive fmt))

/-- From R77: `fp_add(a, b)` is the real sum rounded to nearest, ties to even. R78 bounds the numbers a
command forms; that the rule holds of every two `Fp`, with no bound on the exponent, is the model's (log entry 4). -/
def Obligations.AdditionRoundsToNearestEven : Prop :=
  ∀ (fmt : FpFormat) (a b : Fp), IsNearestEven fmt (fpVal a + fpVal b) (fpAdd fmt a b)

/-- R79: `trunc_u8` discards the fraction on `[0, 256)`; 255 from 256 on; 0 below zero and for what is not a number. -/
def Obligations.TruncationDiscardsTheFraction : Prop :=
  (∀ (negative : Bool) (x : Fp),
    (fpVal x = 0 → truncU8 (.finite negative x) = 0#8) ∧
    (fpVal x ≠ 0 → truncU8 (.finite true x) = 0#8) ∧
    (fpVal x < 256 → (truncU8 (.finite false x)).toNat = ⌊fpVal x⌋₊) ∧
    (256 ≤ fpVal x → truncU8 (.finite false x) = 255#8)) ∧
  truncU8 (.infinite false) = 255#8 ∧ truncU8 (.infinite true) = 0#8 ∧ truncU8 .nan = 0#8

/-- R80: every row mean is at most 255, every partial sum of `k+1` of them at most `255*(k+1)`, and the quotient at most
255, so that truncation never saturates. -/
def Obligations.FusedPathStaysInRange : Prop :=
  ∀ (fmt : FpFormat) (s0 s1 s2 s3 s4 : Nat), s0 ≤ 1275 → s1 ≤ 1275 → s2 ≤ 1275 → s3 ≤ 1275 → s4 ≤ 1275 →
    let r := rowMean fmt
    let acc1 := fpAdd fmt (r s0) (r s1)
    let acc2 := fpAdd fmt acc1 (r s2)
    let acc3 := fpAdd fmt acc2 (r s3)
    fpVal (r s0) ≤ 255 ∧ fpVal acc1 ≤ 510 ∧ fpVal acc2 ≤ 765 ∧ fpVal acc3 ≤ 1020 ∧
      fpVal (fusedAcc fmt s0 s1 s2 s3 s4) ≤ 1275 ∧
      fpVal (fpDiv fmt (fusedAcc fmt s0 s1 s2 s3 s4) (fpFive fmt)) ≤ 255

/-- R81: in both formats the truncated floating-point mean of five samples is integer division by five. -/
def Obligations.TruncatedMeanIsIntegerDivision : Prop :=
  ∀ (fmt : FpFormat) (k : Nat), k ≤ 1275 →
    truncU8 (.finite false (fpDiv fmt (fp fmt k) (fpFive fmt))) = avg5 k ∧ (avg5 k).toNat = k / 5

/-- R93 (a), (b): where 25 does not divide the window's sum the fused sample is the truncated mean; where it does, it is
the mean or one less. -/
def Obligations.FusedSampleIsMeanOrOneLess : Prop :=
  ∀ (fmt : FpFormat) (s0 s1 s2 s3 s4 : Nat), s0 ≤ 1275 → s1 ≤ 1275 → s2 ≤ 1275 → s3 ≤ 1275 → s4 ≤ 1275 →
    let total := s0 + s1 + s2 + s3 + s4
    let px := (fusedPx fmt s0 s1 s2 s3 s4).toNat
    (total % 25 ≠ 0 → px = total / 25) ∧ (total % 25 = 0 → px = total / 25 ∨ px + 1 = total / 25)

/-- R93 (c): where every row sum is a multiple of five, every operation is exact and the sample is the truncated mean. -/
def Obligations.FusedSampleIsExactOnMultiplesOfFive : Prop :=
  ∀ (fmt : FpFormat) (r0 r1 r2 r3 r4 : Nat), r0 ≤ 255 → r1 ≤ 255 → r2 ≤ 255 → r3 ≤ 255 → r4 ≤ 255 →
    fpVal (fusedAcc fmt (5 * r0) (5 * r1) (5 * r2) (5 * r3) (5 * r4)) = r0 + r1 + r2 + r3 + r4 ∧
      (fusedPx fmt (5 * r0) (5 * r1) (5 * r2) (5 * r3) (5 * r4)).toNat = (r0 + r1 + r2 + r3 + r4) / 5

/-- R94: the fused sample is at most the mean, at most one below it, and exactly one below only in case (b) of R93. -/
def Obligations.FusedSampleIsWithinOneOfTheMean : Prop :=
  ∀ (fmt : FpFormat) (s0 s1 s2 s3 s4 : Nat), s0 ≤ 1275 → s1 ≤ 1275 → s2 ≤ 1275 → s3 ≤ 1275 → s4 ≤ 1275 →
    let mean : ℚ := (s0 + s1 + s2 + s3 + s4 : ℚ) / 25
    let px : ℚ := ((fusedPx fmt s0 s1 s2 s3 s4).toNat : ℚ)
    mean - 1 ≤ px ∧ px ≤ mean ∧ (mean - 1 = px → (s0 + s1 + s2 + s3 + s4) % 25 = 0)

/-- R108: the staged result is at most the mean and at most `8/5` below it, never above the fused result and at most one
below that, and equal to it where every row sum is a multiple of five; with the rule's two examples. -/
def Obligations.StagedAgainstFused : Prop :=
  ∀ fmt : FpFormat,
    (∀ s0 s1 s2 s3 s4 : Nat, s0 ≤ 1275 → s1 ≤ 1275 → s2 ≤ 1275 → s3 ≤ 1275 → s4 ≤ 1275 →
      let mean : ℚ := (s0 + s1 + s2 + s3 + s4 : ℚ) / 25
      let staged := stagedPx s0 s1 s2 s3 s4
      let fused := (fusedPx fmt s0 s1 s2 s3 s4).toNat
      mean - 8 / 5 ≤ (staged : ℚ) ∧ (staged : ℚ) ≤ mean ∧
        (fused = staged ∨ fused = staged + 1) ∧
        (s0 % 5 = 0 → s1 % 5 = 0 → s2 % 5 = 0 → s3 % 5 = 0 → s4 % 5 = 0 → fused = staged)) ∧
    (fusedPx fmt 19 19 19 19 19).toNat = 3 ∧ stagedPx 19 19 19 19 19 = 3 ∧
    (fusedPx fmt 24 24 24 24 255).toNat = 14 ∧ stagedPx 24 24 24 24 255 = 13

/-! ## Whole calls -/

/-- From R58, R39, R158: a call form from `IDLE` or `DONE` with accepted operands returns, however many reads of `STATUS`
find `BUSY`: the last read is `DONE`, and START and COMPLETE together have made the one atomic change of R62. R159 gives
no time; that the poll carries `spins`, the count of its reads that find `BUSY`, is the model's choice (log entry 6). -/
def Obligations.CallReturnsWithTheResult : Prop :=
  ∀ (i : Instr) (s : State) (n m g inp : Word) (spins : Nat) (rest : List Event), openState s →
    s.events = callForm i n m g inp spins ++ rest →
    OperandsAccepted { s with n := n, m := m, g := g, inp := inp } →
    scratchAccepted i { s with n := n, m := m, g := g, inp := inp } →
    ∃ mem, runSteps (spins + 7) s = .next
        { s with
          n := n, m := m, g := g, inp := inp, cmd := encode i, seq := .done, scr := [], tainted := false, unseen := [], mem := mem,
          events := rest,
          out := s.out ++ List.replicate spins (.reg .status 1#32) ++ [.reg .status 2#32] } ∧
      WritesExactly { s with n := n, m := m, g := g, inp := inp }
        (commandByte i { s with n := n, m := m, g := g, inp := inp }) mem

/-- R58, R127: a call form whose operands fail a check ends its poll at the first read, with `FAULT`, the error's code
recorded, and memory and scratch untouched. The poll's count `spins`, the model's (log entry 6), plays no part. -/
def Obligations.FailedCallEndsInFault : Prop :=
  ∀ (i : Instr) (s : State) (n m g inp : Word) (spins : Nat) (rest : List Event) (e : ErrCode), openState s →
    s.events = callForm i n m g inp spins ++ rest → e ≠ .none →
    ({ s with n := n, m := m, g := g, inp := inp } : State).firstError (encode i) = e →
    runSteps 6 s = .next
      { s with
        n := n, m := m, g := g, inp := inp, cmd := encode i, seq := .fault, err := e, tainted := false,
        events := rest, out := s.out ++ [.reg .status 3#32] }
end

