-- ==== Sys2Proof/Laws/Cells.lean ====
section
/-! SUPPORT. The laws of cell lists, external memory and scratch memory: a read after a write to the same place gives
the value written, a write leaves every other place alone, and every operation keeps the canonical form. -/

namespace Sys2Proof.Machine

/-! ## Lookup after insert and erase -/

@[simp] theorem lookupCell_nil (a : Nat) : lookupCell [] a = none := rfl

theorem lookupCell_insertCell (cells : List Host.Cell) (a b : Nat) (v : Byte) :
    lookupCell (insertCell cells a v) b = if a = b then some v else lookupCell cells b := by
  induction cells with
  | nil => simp [insertCell, lookupCell]
  | cons c rest ih =>
    obtain ⟨k, u⟩ := c
    by_cases hlt : a < k
    · simp [insertCell, hlt, lookupCell]
    · by_cases heq : a = k
      · subst heq
        by_cases hb : a = b <;> simp [insertCell, lookupCell, hb]
      · by_cases hk : k = b
        · subst hk
          simp [insertCell, hlt, heq, lookupCell]
        · simp [insertCell, hlt, heq, lookupCell, hk, ih]

theorem lookupCell_eraseCell (cells : List Host.Cell) (a b : Nat) :
    lookupCell (eraseCell cells a) b = if a = b then none else lookupCell cells b := by
  induction cells with
  | nil => simp [eraseCell]
  | cons c rest ih =>
    obtain ⟨k, u⟩ := c
    by_cases hk : k = a
    · subst hk
      by_cases hb : k = b
      · subst hb
        simpa [eraseCell] using ih
      · simp [eraseCell, lookupCell, ih, hb]
    · by_cases hb : k = b
      · subst hb
        simp [eraseCell, hk, lookupCell, Ne.symm hk]
      · simp [eraseCell, hk, lookupCell, hb, ih]

/-! ## Keys -/

theorem mem_insertCell {cells : List Host.Cell} {a : Nat} {v : Byte} {c : Host.Cell}
    (h : c ∈ insertCell cells a v) : c = (a, v) ∨ c ∈ cells := by
  induction cells with
  | nil => simpa [insertCell] using h
  | cons d rest ih =>
    simp only [insertCell] at h
    split at h
    · simpa using h
    · split at h
      · rcases List.mem_cons.1 h with h | h
        · exact .inl h
        · exact .inr (List.mem_cons_of_mem _ h)
      · rcases List.mem_cons.1 h with h | h
        · exact .inr (h ▸ List.mem_cons_self)
        · exact (ih h).imp_right (List.mem_cons_of_mem _)

theorem mem_eraseCell {cells : List Host.Cell} {a : Nat} {c : Host.Cell}
    (h : c ∈ eraseCell cells a) : c ∈ cells := by
  induction cells with
  | nil => exact h
  | cons d rest ih =>
    simp only [eraseCell] at h
    split at h
    · exact List.mem_cons_of_mem _ (ih h)
    · rcases List.mem_cons.1 h with h | h
      · exact h ▸ List.mem_cons_self
      · exact List.mem_cons_of_mem _ (ih h)

theorem insertCell_rising {cells : List Host.Cell} (a : Nat) (v : Byte) (h : Cells.rising cells) :
    Cells.rising (insertCell cells a v) := by
  induction cells with
  | nil => simp [insertCell]
  | cons c rest ih =>
    obtain ⟨hc, hrest⟩ := List.pairwise_cons.1 h
    simp only [insertCell]
    split
    · rename_i hlt
      refine List.pairwise_cons.2 ⟨fun d hd => ?_, h⟩
      rcases List.mem_cons.1 hd with rfl | hd
      · exact hlt
      · exact lt_trans hlt (hc d hd)
    · split
      · rename_i heq
        exact List.pairwise_cons.2 ⟨fun d hd => heq ▸ hc d hd, hrest⟩
      · refine List.pairwise_cons.2 ⟨fun d hd => ?_, ih hrest⟩
        rcases mem_insertCell hd with rfl | hd
        · simp only; omega
        · exact hc d hd

theorem eraseCell_rising {cells : List Host.Cell} (a : Nat) (h : Cells.rising cells) :
    Cells.rising (eraseCell cells a) := by
  induction cells with
  | nil => exact h
  | cons c rest ih =>
    obtain ⟨hc, hrest⟩ := List.pairwise_cons.1 h
    simp only [eraseCell]
    split
    · exact ih hrest
    · exact List.pairwise_cons.2 ⟨fun d hd => hc d (mem_eraseCell hd), ih hrest⟩

/-! ## External memory -/

@[simp] theorem readByte_setByte (mem : List Host.Cell) (a b : Nat) (v : Byte) :
    readByte (setByte mem a v) b = if a = b then v else readByte mem b := by
  by_cases hv : v = unlistedByte
  · by_cases hb : a = b <;> simp [readByte, setByte, hv, lookupCell_eraseCell, hb]
  · by_cases hb : a = b <;> simp [readByte, setByte, hv, lookupCell_insertCell, hb]

/-- Every write keeps the canonical form. -/
theorem setByte_wf {mem : List Host.Cell} {a : Nat} (v : Byte) (ha : a < memSize) (h : Memory.wf mem) :
    Memory.wf (setByte mem a v) := by
  unfold setByte
  split
  · exact ⟨eraseCell_rising a h.1, fun c hc => h.2 c (mem_eraseCell hc)⟩
  · rename_i hv
    refine ⟨insertCell_rising a v h.1, fun c hc => ?_⟩
    rcases mem_insertCell hc with rfl | hc
    · exact ⟨ha, hv⟩
    · exact h.2 c hc

/-- The memory of the reset state has the canonical form. -/
theorem reset_mem_wf : Memory.wf State.reset.mem :=
  ⟨List.Pairwise.nil, fun _ h => absurd h List.not_mem_nil⟩

/-- An address below every listed one is not listed. -/
theorem lookupCell_eq_none_of_lt {cells : List Host.Cell} {a : Nat} (h : ∀ c ∈ cells, a < c.1) :
    lookupCell cells a = none := by
  induction cells with
  | nil => rfl
  | cons c rest ih =>
    have hc := h c List.mem_cons_self
    simp [lookupCell, Nat.ne_of_gt hc, ih fun d hd => h d (List.mem_cons_of_mem _ hd)]

/-- A canonical memory is determined by what its addresses read as. -/
theorem memory_ext {m1 m2 : List Host.Cell} (h1 : Memory.wf m1) (h2 : Memory.wf m2)
    (h : ∀ a, readByte m1 a = readByte m2 a) : m1 = m2 := by
  induction m1 generalizing m2 with
  | nil =>
    cases m2 with
    | nil => rfl
    | cons d rest =>
      have := h d.1
      simp [readByte, lookupCell] at this
      exact absurd this.symm (h2.2 d List.mem_cons_self).2
  | cons c rest ih =>
    obtain ⟨hc, hr1⟩ := List.pairwise_cons.1 h1.1
    have hcv := (h1.2 c List.mem_cons_self).2
    cases m2 with
    | nil =>
      have := h c.1
      simp [readByte, lookupCell] at this
      exact absurd this hcv
    | cons d rest2 =>
      obtain ⟨hd, hr2⟩ := List.pairwise_cons.1 h2.1
      have hdv := (h2.2 d List.mem_cons_self).2
      obtain ⟨k1, u1⟩ := c
      obtain ⟨k2, u2⟩ := d
      rcases Nat.lt_trichotomy k1 k2 with hlt | heq | hgt
      · have hk := h k1
        have hn : lookupCell ((k2, u2) :: rest2) k1 = none :=
          lookupCell_eq_none_of_lt fun e he => by
            rcases List.mem_cons.1 he with rfl | he
            · exact hlt
            · exact lt_trans hlt (hd e he)
        simp [readByte, hn] at hk
        simp [lookupCell] at hk
        exact absurd hk hcv
      · subst heq
        have hk := h k1
        simp [readByte, lookupCell] at hk
        subst hk
        congr 1
        refine ih ⟨hr1, fun e he => h1.2 e (List.mem_cons_of_mem _ he)⟩
          ⟨hr2, fun e he => h2.2 e (List.mem_cons_of_mem _ he)⟩ fun a => ?_
        by_cases ha : k1 = a
        · subst ha
          simp [readByte, lookupCell_eq_none_of_lt hc, lookupCell_eq_none_of_lt hd]
        · have := h a
          simpa [readByte, lookupCell, ha] using this
      · have hk := h k2
        have hn : lookupCell ((k1, u1) :: rest) k2 = none :=
          lookupCell_eq_none_of_lt fun e he => by
            rcases List.mem_cons.1 he with rfl | he
            · exact hgt
            · exact lt_trans hgt (hc e he)
        simp [readByte, hn] at hk
        simp [lookupCell] at hk
        exact absurd hk.symm hdv

/-- All a byte load can do. -/
theorem memRead_cases (mem : List Host.Cell) (a : Nat) :
    (a < memSize ∧ memRead mem a = .ok (readByte mem a)) ∨
      (memSize ≤ a ∧ memRead mem a = .error (.addressOutOfRange a)) := by
  rcases Nat.lt_or_ge a memSize with h | h
  · exact .inl ⟨h, by simp [memRead, h]⟩
  · exact .inr ⟨h, by simp [memRead, Nat.not_lt.2 h]⟩

/-- All a byte store can do. -/
theorem memWrite_cases (mem : List Host.Cell) (a : Nat) (v : Byte) :
    (a < memSize ∧ memWrite mem a v = .ok (setByte mem a v)) ∨
      (memSize ≤ a ∧ memWrite mem a v = .error (.addressOutOfRange a)) := by
  rcases Nat.lt_or_ge a memSize with h | h
  · exact .inl ⟨h, by simp [memWrite, h]⟩
  · exact .inr ⟨h, by simp [memWrite, Nat.not_lt.2 h]⟩

/-! ## Scratch memory -/

/-- A scratch load that answers gives the byte that was written. -/
theorem scrRead_eq_ok {cap : Nat} {scr : List Host.Cell} {k : Nat} {v : Byte} :
    scrRead cap scr k = .ok v ↔ k < cap ∧ lookupCell scr k = some v := by
  unfold scrRead
  split
  · rename_i h
    cases hl : lookupCell scr k <;> simp [h]
  · rename_i h
    simp [h]

/-- A scratch store that answers has listed the byte. -/
theorem scrWrite_eq_ok {cap : Nat} {scr scr' : List Host.Cell} {k : Nat} {v : Byte} :
    scrWrite cap scr k v = .ok scr' ↔ k < cap ∧ scr' = insertCell scr k v := by
  unfold scrWrite
  split <;> simp_all [eq_comm]

end Sys2Proof.Machine
end

