-- ==== Sys2Proof/Laws/Loops.lean ====
section
/-! SUPPORT. The two rules of the counted loop: what holds where it answers, and when it answers. -/

namespace Sys2Proof.Machine

variable {ε σ : Type}

@[simp] theorem forRange_zero (body : Nat → σ → Except ε σ) (s : σ) : forRange 0 body s = .ok s := rfl

/-- Where a loop answers, whatever every iteration keeps holds after it. -/
theorem forRange_keeps {body : Nat → σ → Except ε σ} (P : Nat → σ → Prop) :
    ∀ (k : Nat) {s t : σ}, P 0 s → (∀ i u v, i < k → P i u → body i u = .ok v → P (i + 1) v) →
      forRange k body s = .ok t → P k t
  | 0, s, t, h0, _, h => by
    simp only [forRange_zero, Except.ok.injEq] at h
    exact h ▸ h0
  | k + 1, s, t, h0, hstep, h => by
    simp only [forRange] at h
    cases hk : forRange k body s with
    | error e => simp [hk, Except.bind] at h
    | ok u =>
      rw [hk] at h
      exact hstep k u t (Nat.lt_succ_self k)
        (forRange_keeps P k h0 (fun i u v hi => hstep i u v (Nat.lt_succ_of_lt hi)) hk) h

/-- A loop every iteration of which answers, from states that keep `P`, answers. -/
theorem forRange_answers {body : Nat → σ → Except ε σ} (P : Nat → σ → Prop) :
    ∀ (k : Nat) {s : σ}, P 0 s → (∀ i u, i < k → P i u → ∃ v, body i u = .ok v ∧ P (i + 1) v) →
      ∃ t, forRange k body s = .ok t ∧ P k t
  | 0, s, h0, _ => ⟨s, rfl, h0⟩
  | k + 1, s, h0, hstep => by
    obtain ⟨u, hu, hP⟩ := forRange_answers P k h0 fun i u hi => hstep i u (Nat.lt_succ_of_lt hi)
    obtain ⟨v, hv, hQ⟩ := hstep k u (Nat.lt_succ_self k) hP
    exact ⟨v, by simp [forRange, hu, Except.bind, hv], hQ⟩

end Sys2Proof.Machine
end

