-- ==== Sys2Proof/Laws/State.lean ====
section
/-! SUPPORT. One lemma per field per named update of the state: no later proof unfolds a record update. -/

namespace Sys2Proof.Machine

/-! ## `raise` -/

@[simp] theorem raise_ctx (e : ErrCode) (s : State) : (raise e s).ctx = s.ctx := rfl
@[simp] theorem raise_n (e : ErrCode) (s : State) : (raise e s).n = s.n := rfl
@[simp] theorem raise_m (e : ErrCode) (s : State) : (raise e s).m = s.m := rfl
@[simp] theorem raise_g (e : ErrCode) (s : State) : (raise e s).g = s.g := rfl
@[simp] theorem raise_inp (e : ErrCode) (s : State) : (raise e s).inp = s.inp := rfl
@[simp] theorem raise_cmd (e : ErrCode) (s : State) : (raise e s).cmd = s.cmd := rfl
@[simp] theorem raise_seq (e : ErrCode) (s : State) : (raise e s).seq = .fault := rfl
@[simp] theorem raise_err (e : ErrCode) (s : State) : (raise e s).err = e := rfl
@[simp] theorem raise_scr (e : ErrCode) (s : State) : (raise e s).scr = s.scr := rfl
@[simp] theorem raise_mem (e : ErrCode) (s : State) : (raise e s).mem = s.mem := rfl
@[simp] theorem raise_params (e : ErrCode) (s : State) : (raise e s).params = s.params := rfl
@[simp] theorem raise_events (e : ErrCode) (s : State) : (raise e s).events = s.events := rfl
@[simp] theorem raise_out (e : ErrCode) (s : State) : (raise e s).out = s.out := rfl
@[simp] theorem raise_tainted (e : ErrCode) (s : State) : (raise e s).tainted = s.tainted := rfl
@[simp] theorem raise_unseen (e : ErrCode) (s : State) : (raise e s).unseen = s.unseen := rfl
@[simp] theorem raise_drawn (e : ErrCode) (s : State) : (raise e s).drawn = s.drawn := rfl

/-! ## `resetEngine` -/

@[simp] theorem resetEngine_ctx (s : State) : (resetEngine s).ctx = 0#32 := rfl
@[simp] theorem resetEngine_n (s : State) : (resetEngine s).n = 0#32 := rfl
@[simp] theorem resetEngine_m (s : State) : (resetEngine s).m = 0#32 := rfl
@[simp] theorem resetEngine_g (s : State) : (resetEngine s).g = 0#32 := rfl
@[simp] theorem resetEngine_inp (s : State) : (resetEngine s).inp = 0#32 := rfl
@[simp] theorem resetEngine_cmd (s : State) : (resetEngine s).cmd = 0#32 := rfl
@[simp] theorem resetEngine_seq (s : State) : (resetEngine s).seq = .idle := rfl
@[simp] theorem resetEngine_err (s : State) : (resetEngine s).err = .none := rfl
@[simp] theorem resetEngine_scr (s : State) : (resetEngine s).scr = [] := rfl
@[simp] theorem resetEngine_mem (s : State) : (resetEngine s).mem = s.mem := rfl
@[simp] theorem resetEngine_params (s : State) : (resetEngine s).params = s.params := rfl
@[simp] theorem resetEngine_events (s : State) : (resetEngine s).events = s.events := rfl
@[simp] theorem resetEngine_out (s : State) : (resetEngine s).out = s.out := rfl
@[simp] theorem resetEngine_tainted (s : State) : (resetEngine s).tainted = false := rfl
@[simp] theorem resetEngine_unseen (s : State) : (resetEngine s).unseen = [] := rfl
@[simp] theorem resetEngine_drawn (s : State) : (resetEngine s).drawn = s.drawn := rfl

/-! ## `finish` -/

@[simp] theorem finish_ctx (s : State) : (finish s).ctx = s.ctx := rfl
@[simp] theorem finish_n (s : State) : (finish s).n = s.n := rfl
@[simp] theorem finish_m (s : State) : (finish s).m = s.m := rfl
@[simp] theorem finish_g (s : State) : (finish s).g = s.g := rfl
@[simp] theorem finish_inp (s : State) : (finish s).inp = s.inp := rfl
@[simp] theorem finish_cmd (s : State) : (finish s).cmd = s.cmd := rfl
@[simp] theorem finish_seq (s : State) : (finish s).seq = .done := rfl
@[simp] theorem finish_err (s : State) : (finish s).err = s.err := rfl
@[simp] theorem finish_scr (s : State) : (finish s).scr = [] := rfl
@[simp] theorem finish_mem (s : State) : (finish s).mem = s.mem := rfl
@[simp] theorem finish_params (s : State) : (finish s).params = s.params := rfl
@[simp] theorem finish_events (s : State) : (finish s).events = s.events := rfl
@[simp] theorem finish_out (s : State) : (finish s).out = s.out := rfl
@[simp] theorem finish_tainted (s : State) : (finish s).tainted = false := rfl
@[simp] theorem finish_unseen (s : State) : (finish s).unseen = s.unseen ++ [s.operands] := rfl
@[simp] theorem finish_drawn (s : State) : (finish s).drawn = s.drawn := rfl

/-! ## `respond` -/

@[simp] theorem respond_ctx (r : Response) (s : State) : (respond r s).ctx = s.ctx := rfl
@[simp] theorem respond_n (r : Response) (s : State) : (respond r s).n = s.n := rfl
@[simp] theorem respond_m (r : Response) (s : State) : (respond r s).m = s.m := rfl
@[simp] theorem respond_g (r : Response) (s : State) : (respond r s).g = s.g := rfl
@[simp] theorem respond_inp (r : Response) (s : State) : (respond r s).inp = s.inp := rfl
@[simp] theorem respond_cmd (r : Response) (s : State) : (respond r s).cmd = s.cmd := rfl
@[simp] theorem respond_seq (r : Response) (s : State) : (respond r s).seq = s.seq := rfl
@[simp] theorem respond_err (r : Response) (s : State) : (respond r s).err = s.err := rfl
@[simp] theorem respond_scr (r : Response) (s : State) : (respond r s).scr = s.scr := rfl
@[simp] theorem respond_mem (r : Response) (s : State) : (respond r s).mem = s.mem := rfl
@[simp] theorem respond_params (r : Response) (s : State) : (respond r s).params = s.params := rfl
@[simp] theorem respond_events (r : Response) (s : State) : (respond r s).events = s.events := rfl
@[simp] theorem respond_out (r : Response) (s : State) : (respond r s).out = s.out ++ [r] := rfl
@[simp] theorem respond_tainted (r : Response) (s : State) : (respond r s).tainted = s.tainted := rfl
@[simp] theorem respond_unseen (r : Response) (s : State) : (respond r s).unseen = s.unseen := rfl
@[simp] theorem respond_drawn (r : Response) (s : State) : (respond r s).drawn = s.drawn := rfl

/-! ## `setEvents` -/

@[simp] theorem setEvents_ctx (es : List Event) (s : State) : (setEvents es s).ctx = s.ctx := rfl
@[simp] theorem setEvents_n (es : List Event) (s : State) : (setEvents es s).n = s.n := rfl
@[simp] theorem setEvents_m (es : List Event) (s : State) : (setEvents es s).m = s.m := rfl
@[simp] theorem setEvents_g (es : List Event) (s : State) : (setEvents es s).g = s.g := rfl
@[simp] theorem setEvents_inp (es : List Event) (s : State) : (setEvents es s).inp = s.inp := rfl
@[simp] theorem setEvents_cmd (es : List Event) (s : State) : (setEvents es s).cmd = s.cmd := rfl
@[simp] theorem setEvents_seq (es : List Event) (s : State) : (setEvents es s).seq = s.seq := rfl
@[simp] theorem setEvents_err (es : List Event) (s : State) : (setEvents es s).err = s.err := rfl
@[simp] theorem setEvents_scr (es : List Event) (s : State) : (setEvents es s).scr = s.scr := rfl
@[simp] theorem setEvents_mem (es : List Event) (s : State) : (setEvents es s).mem = s.mem := rfl
@[simp] theorem setEvents_params (es : List Event) (s : State) : (setEvents es s).params = s.params := rfl
@[simp] theorem setEvents_events (es : List Event) (s : State) : (setEvents es s).events = es := rfl
@[simp] theorem setEvents_out (es : List Event) (s : State) : (setEvents es s).out = s.out := rfl
@[simp] theorem setEvents_tainted (es : List Event) (s : State) : (setEvents es s).tainted = s.tainted := rfl
@[simp] theorem setEvents_unseen (es : List Event) (s : State) : (setEvents es s).unseen = s.unseen := rfl
@[simp] theorem setEvents_drawn (es : List Event) (s : State) : (setEvents es s).drawn = s.drawn := rfl

/-! ## `setMem` -/

@[simp] theorem setMem_ctx (mem : List Host.Cell) (s : State) : (setMem mem s).ctx = s.ctx := rfl
@[simp] theorem setMem_n (mem : List Host.Cell) (s : State) : (setMem mem s).n = s.n := rfl
@[simp] theorem setMem_m (mem : List Host.Cell) (s : State) : (setMem mem s).m = s.m := rfl
@[simp] theorem setMem_g (mem : List Host.Cell) (s : State) : (setMem mem s).g = s.g := rfl
@[simp] theorem setMem_inp (mem : List Host.Cell) (s : State) : (setMem mem s).inp = s.inp := rfl
@[simp] theorem setMem_cmd (mem : List Host.Cell) (s : State) : (setMem mem s).cmd = s.cmd := rfl
@[simp] theorem setMem_seq (mem : List Host.Cell) (s : State) : (setMem mem s).seq = s.seq := rfl
@[simp] theorem setMem_err (mem : List Host.Cell) (s : State) : (setMem mem s).err = s.err := rfl
@[simp] theorem setMem_scr (mem : List Host.Cell) (s : State) : (setMem mem s).scr = s.scr := rfl
@[simp] theorem setMem_mem (mem : List Host.Cell) (s : State) : (setMem mem s).mem = mem := rfl
@[simp] theorem setMem_params (mem : List Host.Cell) (s : State) : (setMem mem s).params = s.params := rfl
@[simp] theorem setMem_events (mem : List Host.Cell) (s : State) : (setMem mem s).events = s.events := rfl
@[simp] theorem setMem_out (mem : List Host.Cell) (s : State) : (setMem mem s).out = s.out := rfl
@[simp] theorem setMem_tainted (mem : List Host.Cell) (s : State) : (setMem mem s).tainted = s.tainted := rfl
@[simp] theorem setMem_unseen (mem : List Host.Cell) (s : State) : (setMem mem s).unseen = s.unseen := rfl
@[simp] theorem setMem_drawn (mem : List Host.Cell) (s : State) : (setMem mem s).drawn = s.drawn := rfl

/-! ## `setScr` -/

@[simp] theorem setScr_ctx (scr : List Host.Cell) (s : State) : (setScr scr s).ctx = s.ctx := rfl
@[simp] theorem setScr_n (scr : List Host.Cell) (s : State) : (setScr scr s).n = s.n := rfl
@[simp] theorem setScr_m (scr : List Host.Cell) (s : State) : (setScr scr s).m = s.m := rfl
@[simp] theorem setScr_g (scr : List Host.Cell) (s : State) : (setScr scr s).g = s.g := rfl
@[simp] theorem setScr_inp (scr : List Host.Cell) (s : State) : (setScr scr s).inp = s.inp := rfl
@[simp] theorem setScr_cmd (scr : List Host.Cell) (s : State) : (setScr scr s).cmd = s.cmd := rfl
@[simp] theorem setScr_seq (scr : List Host.Cell) (s : State) : (setScr scr s).seq = s.seq := rfl
@[simp] theorem setScr_err (scr : List Host.Cell) (s : State) : (setScr scr s).err = s.err := rfl
@[simp] theorem setScr_scr (scr : List Host.Cell) (s : State) : (setScr scr s).scr = scr := rfl
@[simp] theorem setScr_mem (scr : List Host.Cell) (s : State) : (setScr scr s).mem = s.mem := rfl
@[simp] theorem setScr_params (scr : List Host.Cell) (s : State) : (setScr scr s).params = s.params := rfl
@[simp] theorem setScr_events (scr : List Host.Cell) (s : State) : (setScr scr s).events = s.events := rfl
@[simp] theorem setScr_out (scr : List Host.Cell) (s : State) : (setScr scr s).out = s.out := rfl
@[simp] theorem setScr_tainted (scr : List Host.Cell) (s : State) : (setScr scr s).tainted = s.tainted := rfl
@[simp] theorem setScr_unseen (scr : List Host.Cell) (s : State) : (setScr scr s).unseen = s.unseen := rfl
@[simp] theorem setScr_drawn (scr : List Host.Cell) (s : State) : (setScr scr s).drawn = s.drawn := rfl

/-! ## `countDraw` -/

@[simp] theorem countDraw_ctx (s : State) : (countDraw s).ctx = s.ctx := rfl
@[simp] theorem countDraw_n (s : State) : (countDraw s).n = s.n := rfl
@[simp] theorem countDraw_m (s : State) : (countDraw s).m = s.m := rfl
@[simp] theorem countDraw_g (s : State) : (countDraw s).g = s.g := rfl
@[simp] theorem countDraw_inp (s : State) : (countDraw s).inp = s.inp := rfl
@[simp] theorem countDraw_cmd (s : State) : (countDraw s).cmd = s.cmd := rfl
@[simp] theorem countDraw_seq (s : State) : (countDraw s).seq = s.seq := rfl
@[simp] theorem countDraw_err (s : State) : (countDraw s).err = s.err := rfl
@[simp] theorem countDraw_scr (s : State) : (countDraw s).scr = s.scr := rfl
@[simp] theorem countDraw_mem (s : State) : (countDraw s).mem = s.mem := rfl
@[simp] theorem countDraw_params (s : State) : (countDraw s).params = s.params := rfl
@[simp] theorem countDraw_events (s : State) : (countDraw s).events = s.events := rfl
@[simp] theorem countDraw_out (s : State) : (countDraw s).out = s.out := rfl
@[simp] theorem countDraw_tainted (s : State) : (countDraw s).tainted = s.tainted := rfl
@[simp] theorem countDraw_unseen (s : State) : (countDraw s).unseen = s.unseen := rfl
@[simp] theorem countDraw_drawn (s : State) : (countDraw s).drawn = s.drawn + 1 := rfl

/-! ## `taint` -/

@[simp] theorem taint_ctx (s : State) : (taint s).ctx = s.ctx := rfl
@[simp] theorem taint_n (s : State) : (taint s).n = s.n := rfl
@[simp] theorem taint_m (s : State) : (taint s).m = s.m := rfl
@[simp] theorem taint_g (s : State) : (taint s).g = s.g := rfl
@[simp] theorem taint_inp (s : State) : (taint s).inp = s.inp := rfl
@[simp] theorem taint_cmd (s : State) : (taint s).cmd = s.cmd := rfl
@[simp] theorem taint_seq (s : State) : (taint s).seq = s.seq := rfl
@[simp] theorem taint_err (s : State) : (taint s).err = s.err := rfl
@[simp] theorem taint_scr (s : State) : (taint s).scr = s.scr := rfl
@[simp] theorem taint_mem (s : State) : (taint s).mem = s.mem := rfl
@[simp] theorem taint_params (s : State) : (taint s).params = s.params := rfl
@[simp] theorem taint_events (s : State) : (taint s).events = s.events := rfl
@[simp] theorem taint_out (s : State) : (taint s).out = s.out := rfl
@[simp] theorem taint_tainted (s : State) : (taint s).tainted = true := rfl
@[simp] theorem taint_unseen (s : State) : (taint s).unseen = s.unseen := rfl
@[simp] theorem taint_drawn (s : State) : (taint s).drawn = s.drawn := rfl

/-! ## `useOperands` -/

@[simp] theorem useOperands_ctx (o : Operands) (s : State) : (useOperands o s).ctx = s.ctx := rfl
@[simp] theorem useOperands_n (o : Operands) (s : State) : (useOperands o s).n = o.n := rfl
@[simp] theorem useOperands_m (o : Operands) (s : State) : (useOperands o s).m = o.m := rfl
@[simp] theorem useOperands_g (o : Operands) (s : State) : (useOperands o s).g = o.g := rfl
@[simp] theorem useOperands_inp (o : Operands) (s : State) : (useOperands o s).inp = o.inp := rfl
@[simp] theorem useOperands_cmd (o : Operands) (s : State) : (useOperands o s).cmd = s.cmd := rfl
@[simp] theorem useOperands_seq (o : Operands) (s : State) : (useOperands o s).seq = s.seq := rfl
@[simp] theorem useOperands_err (o : Operands) (s : State) : (useOperands o s).err = s.err := rfl
@[simp] theorem useOperands_scr (o : Operands) (s : State) : (useOperands o s).scr = s.scr := rfl
@[simp] theorem useOperands_mem (o : Operands) (s : State) : (useOperands o s).mem = s.mem := rfl
@[simp] theorem useOperands_params (o : Operands) (s : State) : (useOperands o s).params = s.params := rfl
@[simp] theorem useOperands_events (o : Operands) (s : State) : (useOperands o s).events = s.events := rfl
@[simp] theorem useOperands_out (o : Operands) (s : State) : (useOperands o s).out = s.out := rfl
@[simp] theorem useOperands_tainted (o : Operands) (s : State) : (useOperands o s).tainted = s.tainted := rfl
@[simp] theorem useOperands_unseen (o : Operands) (s : State) : (useOperands o s).unseen = s.unseen := rfl
@[simp] theorem useOperands_drawn (o : Operands) (s : State) : (useOperands o s).drawn = s.drawn := rfl

/-- Putting back the operands that were there puts back the state. -/
@[simp] theorem useOperands_operands (s : State) : useOperands s.operands s = s := rfl
@[simp] theorem operands_useOperands (o : Operands) (s : State) : (useOperands o s).operands = o := rfl
@[simp] theorem useOperands_useOperands (o p : Operands) (s : State) :
    useOperands o (useOperands p s) = useOperands o s := rfl

@[simp] theorem useOperands_raise (o : Operands) (e : ErrCode) (s : State) :
    useOperands o (raise e s) = raise e (useOperands o s) := rfl
@[simp] theorem useOperands_respond (o : Operands) (r : Response) (s : State) :
    useOperands o (respond r s) = respond r (useOperands o s) := rfl
@[simp] theorem useOperands_setEvents (o : Operands) (es : List Event) (s : State) :
    useOperands o (setEvents es s) = setEvents es (useOperands o s) := rfl
@[simp] theorem useOperands_setMem (o : Operands) (mem : List Host.Cell) (s : State) :
    useOperands o (setMem mem s) = setMem mem (useOperands o s) := rfl
@[simp] theorem useOperands_setScr (o : Operands) (scr : List Host.Cell) (s : State) :
    useOperands o (setScr scr s) = setScr scr (useOperands o s) := rfl
@[simp] theorem useOperands_countDraw (o : Operands) (s : State) :
    useOperands o (countDraw s) = countDraw (useOperands o s) := rfl
@[simp] theorem useOperands_taint (o : Operands) (s : State) :
    useOperands o (taint s) = taint (useOperands o s) := rfl

/-! ## `seeDone` -/

@[simp] theorem seeDone_ctx (s : State) : (seeDone s).ctx = s.ctx := rfl
@[simp] theorem seeDone_n (s : State) : (seeDone s).n = s.n := rfl
@[simp] theorem seeDone_m (s : State) : (seeDone s).m = s.m := rfl
@[simp] theorem seeDone_g (s : State) : (seeDone s).g = s.g := rfl
@[simp] theorem seeDone_inp (s : State) : (seeDone s).inp = s.inp := rfl
@[simp] theorem seeDone_cmd (s : State) : (seeDone s).cmd = s.cmd := rfl
@[simp] theorem seeDone_seq (s : State) : (seeDone s).seq = s.seq := rfl
@[simp] theorem seeDone_err (s : State) : (seeDone s).err = s.err := rfl
@[simp] theorem seeDone_scr (s : State) : (seeDone s).scr = s.scr := rfl
@[simp] theorem seeDone_mem (s : State) : (seeDone s).mem = s.mem := rfl
@[simp] theorem seeDone_params (s : State) : (seeDone s).params = s.params := rfl
@[simp] theorem seeDone_events (s : State) : (seeDone s).events = s.events := rfl
@[simp] theorem seeDone_out (s : State) : (seeDone s).out = s.out := rfl
@[simp] theorem seeDone_tainted (s : State) : (seeDone s).tainted = s.tainted := rfl
@[simp] theorem seeDone_unseen (s : State) : (seeDone s).unseen = [] := rfl
@[simp] theorem seeDone_drawn (s : State) : (seeDone s).drawn = s.drawn := rfl

end Sys2Proof.Machine
end

