-- ==== Sys2Proof/Laws/Operands.lean ====
section
/-! SUPPORT. The laws of registers, element addresses, footprints, loads, stores, sums and the loop over the valid
region. -/

namespace Sys2Proof.Machine

/-! ## Registers -/

@[simp] theorem ofIdx_idx (r : Reg) : Reg.ofIdx r.idx = r := by cases r <;> rfl

@[simp] theorem idx_ofIdx (idx : BitVec 3) : (Reg.ofIdx idx).idx = idx := by
  revert idx; decide

/-- Writing one of the registers `CTX`, `N`, `M`, `G`, `INP` changes what is read of that register and of no other. -/
theorem readReg_writeOperand {r : Reg} (v : Word) (s : State) (r' : Reg)
    (h : r ≠ .cmd ∧ r ≠ .status ∧ r ≠ .err) :
    readReg r' (writeOperand r v s) = if r' = r then v else readReg r' s := by
  cases r <;> cases r' <;> simp_all [readReg, writeOperand, statusWord, errWord]

/-- Writing a register of the port changes nothing but the five operand registers. -/
theorem writeOperand_frame (r : Reg) (v : Word) (s : State) :
    (writeOperand r v s).cmd = s.cmd ∧ (writeOperand r v s).seq = s.seq ∧ (writeOperand r v s).err = s.err ∧
      (writeOperand r v s).scr = s.scr ∧ (writeOperand r v s).mem = s.mem ∧ (writeOperand r v s).params = s.params ∧
      (writeOperand r v s).events = s.events ∧ (writeOperand r v s).out = s.out ∧
      (writeOperand r v s).tainted = s.tainted ∧ (writeOperand r v s).unseen = s.unseen ∧
      (writeOperand r v s).drawn = s.drawn := by
  cases r <;> simp [writeOperand]

/-! ## Addresses -/

/-- An element lies inside its buffer. -/
theorem element_lt {rows cols i j : Nat} (hi : i < rows) (hj : j < cols) : i * cols + j < rows * cols := by
  have : (i + 1) * cols ≤ rows * cols := Nat.mul_le_mul_right _ hi
  rw [Nat.add_mul] at this
  omega

/-- Two elements of one buffer have one address only if they are one element. -/
theorem elementAddr_inj {base cols i j i' j' : Nat} (hj : j < cols) (hj' : j' < cols)
    (h : elementAddr base cols i j = elementAddr base cols i' j') : i = i' ∧ j = j' := by
  have h : i * cols + j = i' * cols + j' := by unfold elementAddr at h; omega
  have hd : (i * cols + j) / cols = (i' * cols + j') / cols := by rw [h]
  have hm : (i * cols + j) % cols = (i' * cols + j') % cols := by rw [h]
  have hc : 0 < cols := Nat.lt_of_le_of_lt (Nat.zero_le _) hj
  simp only [Nat.mul_comm _ cols, Nat.mul_add_div hc, Nat.mul_add_mod, Nat.div_eq_of_lt hj,
    Nat.div_eq_of_lt hj', Nat.mod_eq_of_lt hj, Nat.mod_eq_of_lt hj', Nat.add_zero] at hd hm
  exact ⟨hd, hm⟩

/-- `OutValid` is the addresses of the valid region's elements (R32). -/
theorem outValid_iff (s : State) (a : Nat) :
    outValid s a = true ↔
      ∃ i j, i < s.rows - 4 ∧ j < s.cols - 4 ∧ a = elementAddr s.outBase s.cols i j := by
  simp only [outValid, decide_eq_true_eq]
  constructor
  · rintro ⟨hg, hi, hj⟩
    refine ⟨_, _, hi, hj, ?_⟩
    have := Nat.div_add_mod (a - s.outBase) s.cols
    rw [Nat.mul_comm] at this
    unfold elementAddr
    omega
  · rintro ⟨i, j, hi, hj, rfl⟩
    have hc : 0 < s.cols := by omega
    have hjc : j < s.cols := by omega
    have ha : elementAddr s.outBase s.cols i j - s.outBase = s.cols * i + j := by
      unfold elementAddr; rw [Nat.mul_comm]; omega
    refine ⟨by unfold elementAddr; omega, ?_, ?_⟩
    · rw [ha, Nat.mul_add_div hc, Nat.div_eq_of_lt hjc]; simpa using hi
    · rw [ha, Nat.mul_add_mod, Nat.mod_eq_of_lt hjc]; exact hj

theorem inFootprint_iff (s : State) (a : Nat) :
    inFootprint s a = true ↔ s.inBase ≤ a ∧ a < s.inBase + s.rows * s.cols := decide_eq_true_iff

theorem outFootprint_iff (s : State) (a : Nat) :
    outFootprint s a = true ↔ s.outBase ≤ a ∧ a < s.outBase + s.rows * s.cols := decide_eq_true_iff

/-- `OutValid` lies inside `OutFootprint` (R32). -/
theorem outFootprint_of_outValid {s : State} {a : Nat} (h : outValid s a = true) : outFootprint s a = true := by
  obtain ⟨i, j, hi, hj, rfl⟩ := (outValid_iff s a).1 h
  have := element_lt (rows := s.rows) (cols := s.cols) (i := i) (j := j) (by omega) (by omega)
  rw [outFootprint_iff]
  unfold elementAddr
  omega

/-- A sample of the input buffer lies inside `InFootprint` (R32). -/
theorem inFootprint_element {s : State} {i j : Nat} (hi : i < s.rows) (hj : j < s.cols) :
    inFootprint s (elementAddr s.inBase s.cols i j) = true := by
  have := element_lt hi hj
  rw [inFootprint_iff]
  unfold elementAddr
  omega

/-! ## Operands and footprints do not depend on memory, events or counts -/

@[simp] theorem setEvents_rows (es : List Event) (s : State) : (setEvents es s).rows = s.rows := rfl
@[simp] theorem setEvents_cols (es : List Event) (s : State) : (setEvents es s).cols = s.cols := rfl
@[simp] theorem setEvents_inBase (es : List Event) (s : State) : (setEvents es s).inBase = s.inBase := rfl
@[simp] theorem setEvents_outBase (es : List Event) (s : State) : (setEvents es s).outBase = s.outBase := rfl
@[simp] theorem inFootprint_setEvents (es : List Event) (s : State) (a : Nat) : inFootprint (setEvents es s) a = inFootprint s a := rfl
@[simp] theorem outFootprint_setEvents (es : List Event) (s : State) (a : Nat) : outFootprint (setEvents es s) a = outFootprint s a := rfl
@[simp] theorem outValid_setEvents (es : List Event) (s : State) (a : Nat) : outValid (setEvents es s) a = outValid s a := rfl
@[simp] theorem setEvents_firstError (es : List Event) (s : State) (w : Word) : (setEvents es s).firstError w = s.firstError w := rfl
@[simp] theorem setMem_rows (mem : List Host.Cell) (s : State) : (setMem mem s).rows = s.rows := rfl
@[simp] theorem setMem_cols (mem : List Host.Cell) (s : State) : (setMem mem s).cols = s.cols := rfl
@[simp] theorem setMem_inBase (mem : List Host.Cell) (s : State) : (setMem mem s).inBase = s.inBase := rfl
@[simp] theorem setMem_outBase (mem : List Host.Cell) (s : State) : (setMem mem s).outBase = s.outBase := rfl
@[simp] theorem inFootprint_setMem (mem : List Host.Cell) (s : State) (a : Nat) : inFootprint (setMem mem s) a = inFootprint s a := rfl
@[simp] theorem outFootprint_setMem (mem : List Host.Cell) (s : State) (a : Nat) : outFootprint (setMem mem s) a = outFootprint s a := rfl
@[simp] theorem outValid_setMem (mem : List Host.Cell) (s : State) (a : Nat) : outValid (setMem mem s) a = outValid s a := rfl
@[simp] theorem setMem_firstError (mem : List Host.Cell) (s : State) (w : Word) : (setMem mem s).firstError w = s.firstError w := rfl
@[simp] theorem setScr_rows (scr : List Host.Cell) (s : State) : (setScr scr s).rows = s.rows := rfl
@[simp] theorem setScr_cols (scr : List Host.Cell) (s : State) : (setScr scr s).cols = s.cols := rfl
@[simp] theorem setScr_inBase (scr : List Host.Cell) (s : State) : (setScr scr s).inBase = s.inBase := rfl
@[simp] theorem setScr_outBase (scr : List Host.Cell) (s : State) : (setScr scr s).outBase = s.outBase := rfl
@[simp] theorem inFootprint_setScr (scr : List Host.Cell) (s : State) (a : Nat) : inFootprint (setScr scr s) a = inFootprint s a := rfl
@[simp] theorem outFootprint_setScr (scr : List Host.Cell) (s : State) (a : Nat) : outFootprint (setScr scr s) a = outFootprint s a := rfl
@[simp] theorem outValid_setScr (scr : List Host.Cell) (s : State) (a : Nat) : outValid (setScr scr s) a = outValid s a := rfl
@[simp] theorem setScr_firstError (scr : List Host.Cell) (s : State) (w : Word) : (setScr scr s).firstError w = s.firstError w := rfl
@[simp] theorem countDraw_rows (s : State) : (countDraw s).rows = s.rows := rfl
@[simp] theorem countDraw_cols (s : State) : (countDraw s).cols = s.cols := rfl
@[simp] theorem countDraw_inBase (s : State) : (countDraw s).inBase = s.inBase := rfl
@[simp] theorem countDraw_outBase (s : State) : (countDraw s).outBase = s.outBase := rfl
@[simp] theorem inFootprint_countDraw (s : State) (a : Nat) : inFootprint (countDraw s) a = inFootprint s a := rfl
@[simp] theorem outFootprint_countDraw (s : State) (a : Nat) : outFootprint (countDraw s) a = outFootprint s a := rfl
@[simp] theorem outValid_countDraw (s : State) (a : Nat) : outValid (countDraw s) a = outValid s a := rfl
@[simp] theorem countDraw_firstError (s : State) (w : Word) : (countDraw s).firstError w = s.firstError w := rfl

@[simp] theorem useOperands_rows (o : Operands) (s : State) : (useOperands o s).rows = o.n.toNat := rfl
@[simp] theorem useOperands_cols (o : Operands) (s : State) : (useOperands o s).cols = o.m.toNat := rfl
@[simp] theorem useOperands_inBase (o : Operands) (s : State) : (useOperands o s).inBase = o.inp.toNat := rfl
@[simp] theorem useOperands_outBase (o : Operands) (s : State) : (useOperands o s).outBase = o.g.toNat := rfl
@[simp] theorem inFootprint_respond (r : Response) (s : State) (a : Nat) :
    inFootprint (respond r s) a = inFootprint s a := rfl
@[simp] theorem outFootprint_respond (r : Response) (s : State) (a : Nat) :
    outFootprint (respond r s) a = outFootprint s a := rfl
@[simp] theorem outValid_respond (r : Response) (s : State) (a : Nat) : outValid (respond r s) a = outValid s a := rfl

/-! ## Loads and stores -/

/-- A load of a sample whose address exists. -/
theorem loadIn_eq {s : State} {i j : Nat} (h : elementAddr s.inBase s.cols i j < memSize) :
    loadIn i j s = .ok (readByte s.mem (elementAddr s.inBase s.cols i j)) := if_pos h

/-- All a store of an output byte can do: it changes `Mem` at one address. -/
theorem storeG_eq_ok {i j : Nat} {v : Byte} {s t : State} :
    storeG i j v s = .ok t ↔ elementAddr s.outBase s.cols i j < memSize ∧
      t = setMem (setByte s.mem (elementAddr s.outBase s.cols i j) v) s := by
  unfold storeG memWrite
  split <;> simp_all [Except.map, eq_comm]

/-- All a store of a scratch byte can do: it changes `Scr` at one index. -/
theorem storeF_eq_ok {i j : Nat} {v : Byte} {s t : State} :
    storeF i j v s = .ok t ↔ elementAddr 0 s.cols i j < s.params.scratchCap ∧
      t = setScr (insertCell s.scr (elementAddr 0 s.cols i j) v) s := by
  unfold storeF scrWrite
  split <;> simp_all [Except.map, eq_comm]

/-! ## Sums -/

/-- Five loads that answer give their sum. -/
theorem sumLoads_eq {load : Nat → Except Fault Byte} {a : Nat → Byte} (h : ∀ e, e < 5 → load e = .ok (a e)) :
    sumLoads load = .ok (sum5 (a 0) (a 1) (a 2) (a 3) (a 4)) := by
  simp [sumLoads, h, Except.bind, Except.map]

/-- A sum of five samples is at most 1275 (R72). -/
theorem sum5_le (a0 a1 a2 a3 a4 : Byte) : sum5 a0 a1 a2 a3 a4 ≤ 1275 := by
  unfold sum5
  have := a0.isLt; have := a1.isLt; have := a2.isLt; have := a3.isLt; have := a4.isLt
  omega

/-- A row sum of the window is at most 1275 (R71, R72). -/
theorem windowRow_le (s : State) (i j d : Nat) : windowRow s i j d ≤ 1275 :=
  sum5_le _ _ _ _ _

/-- A row sum whose five samples lie inside the input buffer is the window's. -/
theorem rowSum_eq {s : State} {i j : Nat} (hi : i < s.rows) (hj : j + 4 < s.cols)
    (hr : s.inBase + s.rows * s.cols ≤ memSize) : rowSum i j s = .ok (windowRow s i j 0) := by
  refine sumLoads_eq (a := fun e => readByte s.mem (elementAddr s.inBase s.cols i (j + e))) fun e he => ?_
  refine loadIn_eq ?_
  have := element_lt hi (show j + e < s.cols by omega)
  unfold elementAddr
  omega

/-! ## The loop over the valid region -/

/-- Where the loop over the valid region answers, whatever every position keeps holds after it. -/
theorem forValid_keeps {body : Nat → Nat → State → Except Fault State} (P : State → Prop) {s t : State} (h0 : P s)
    (hstep : ∀ i j u v, P u → body i j u = .ok v → P v) (h : forValid body s = .ok t) : P t :=
  forRange_keeps (fun _ => P) _ h0
    (fun i _ _ _ hu huv => forRange_keeps (fun _ => P) _ hu (fun j u v _ hu huv => hstep i j u v hu huv) huv) h

end Sys2Proof.Machine
end

