-- ==== Sys2Proof/Laws/Command.lean ====
section
/-! SUPPORT. What START, COMPLETE, a command and a step can do, each said once. -/

namespace Sys2Proof.Machine

/-! ## Words -/

/-- A word is its reserved field above its `OP` (R52). -/
theorem word_ext {v w : Word} (hr : reservedField v = reservedField w) (ho : opField v = opField w) : v = w := by
  have h1 := congrArg BitVec.toNat hr
  have h2 := congrArg BitVec.toNat ho
  simp only [reservedField, opField, BitVec.extractLsb'_toNat, Nat.shiftRight_eq_div_pow] at h1 h2
  apply BitVec.eq_of_toNat_eq
  have := v.isLt; have := w.isLt
  omega

/-- The command an `OP` finds is the one whose word has that `OP` (R53, R62). -/
theorem decodeOp_eq_some {op : Byte} {i : Instr} : decodeOp op = some i ↔ op = opField (encode i) := by
  revert op; cases i <;> decide

/-- `FirstError` of an accepted command (R60, R126). -/
theorem firstError_eq_none {cap : Nat} {w : Word} {n m g inp : Nat} :
    firstError cap w n m g inp = .none ↔ ¬ illegal w ∧ ¬ precondViolated n m ∧ ¬ rangeViolated n m g inp ∧
      ¬ aliasViolated n m g inp ∧ ¬ oomViolated cap w n m := by
  unfold firstError
  (repeat' split) <;> simp_all

/-- The operands are accepted exactly where none of the checks on them holds (R122 to R124): with `n*m > 0`, the
intervals of R124 meet exactly where they share a byte. -/
theorem operandsAccepted_iff (s : State) :
    OperandsAccepted s ↔ ¬ precondViolated s.rows s.cols ∧ ¬ rangeViolated s.rows s.cols s.outBase s.inBase ∧
      ¬ aliasViolated s.rows s.cols s.outBase s.inBase := by
  constructor
  · rintro ⟨hr, hc, hi, ho, hd⟩
    refine ⟨by omega, by omega, fun ⟨h1, h2⟩ => ?_⟩
    have hpos : 0 < s.rows * s.cols := Nat.mul_pos (by omega) (by omega)
    have hin := (inFootprint_iff s (max s.inBase s.outBase)).2 (by omega)
    have hout := (outFootprint_iff s (max s.inBase s.outBase)).2 (by omega)
    rw [hd _ hin] at hout
    exact absurd hout (by decide)
  · rintro ⟨hp, hr, ha⟩
    refine ⟨by omega, by omega, by omega, by omega, fun a hin => ?_⟩
    rw [inFootprint_iff] at hin
    by_contra hout
    rw [Bool.not_eq_false, outFootprint_iff] at hout
    omega

/-! ## START -/

/-- All START can do: `BUSY`, or the fault entry; `CMD` holds the word, and nothing else of the engine or of memory
has changed (R60, R127). -/
theorem start_cases (w : Word) (s : State) :
    (s.firstError w = .none ∧ start w s = { s with cmd := w, tainted := false, seq := .busy }) ∨
      (s.firstError w ≠ .none ∧
        start w s = { s with cmd := w, tainted := false, err := s.firstError w, seq := .fault }) := by
  unfold start raise
  by_cases h : s.firstError w = .none <;> simp [h]

/-! ## A command -/

/-- All a command can do at a step that answers: START, COMPLETE, or nothing. -/
theorem commandStep_eq_next {i : Instr} {effect : State → Except Fault State} {s t : State}
    (h : commandStep i effect s = .next t) :
    (openState s ∧ t = start (encode i) s) ∨
      (s.seq = .busy ∧ ∃ u, (if s.tainted then havocOutValid s else effect s) = .ok u ∧ t = finish u) ∨
      (s.seq = .fault ∧ t = s) := by
  unfold commandStep at h
  split at h
  · rename_i hs; exact .inl ⟨.inl hs, by simpa using h.symm⟩
  · rename_i hs; exact .inl ⟨.inr hs, by simpa using h.symm⟩
  · rename_i hs
    refine .inr (.inl ⟨hs, ?_⟩)
    unfold complete at h
    cases hu : (if s.tainted then havocOutValid s else effect s) with
    | error e => simp [hu, Except.map, toOutcome] at h
    | ok u => exact ⟨u, rfl, by simpa [hu, Except.map, toOutcome] using h.symm⟩
  · rename_i hs; exact .inr (.inr ⟨hs, by simpa using h.symm⟩)

/-- The work of a command's COMPLETE on the memories (R62). -/
def effectOf : Instr → State → Except Fault State
  | .blurFused => fusedEffect
  | .blurStaged => stagedEffect
  | .computeAtStoreAt => stagedEffect
  | .computeAtStoreRoot => stagedEffect

/-- Every command has the shape of `commandStep`. -/
theorem exec_eq (i : Instr) (s : State) : exec i s = commandStep i (effectOf i) s := by cases i <;> rfl

/-! ## What the work of a command leaves alone -/

/-- Two states that differ in `Mem`, `Scr` and the count of free values at most. -/
structure SameControl (s t : State) : Prop where
  ctx : t.ctx = s.ctx
  n : t.n = s.n
  m : t.m = s.m
  g : t.g = s.g
  inp : t.inp = s.inp
  cmd : t.cmd = s.cmd
  seq : t.seq = s.seq
  err : t.err = s.err
  params : t.params = s.params
  events : t.events = s.events
  out : t.out = s.out
  tainted : t.tainted = s.tainted
  unseen : t.unseen = s.unseen

theorem SameControl.refl (s : State) : SameControl s s := by constructor <;> rfl

theorem SameControl.trans {s t u : State} (h1 : SameControl s t) (h2 : SameControl t u) : SameControl s u := by
  obtain ⟨a1, a2, a3, a4, a5, a6, a7, a8, a9, a10, a11, a12, a13⟩ := h1
  obtain ⟨b1, b2, b3, b4, b5, b6, b7, b8, b9, b10, b11, b12, b13⟩ := h2
  constructor <;> simp_all

theorem sameControl_setMem (mem : List Host.Cell) (s : State) : SameControl s (setMem mem s) := by
  constructor <;> rfl

theorem sameControl_setScr (scr : List Host.Cell) (s : State) : SameControl s (setScr scr s) := by
  constructor <;> rfl

theorem sameControl_countDraw (s : State) : SameControl s (countDraw s) := by constructor <;> rfl

theorem sameControl_storeG {i j : Nat} {v : Byte} {s t : State} (h : storeG i j v s = .ok t) : SameControl s t :=
  (storeG_eq_ok.1 h).2 ▸ sameControl_setMem _ _

theorem sameControl_storeF {i j : Nat} {v : Byte} {s t : State} (h : storeF i j v s = .ok t) : SameControl s t :=
  (storeF_eq_ok.1 h).2 ▸ sameControl_setScr _ _

/-- A computation bound to another answers only if both do. -/
theorem except_bind_eq_ok {ε α β : Type} {x : Except ε α} {f : α → Except ε β} {b : β} :
    x.bind f = .ok b ↔ ∃ a, x = .ok a ∧ f a = .ok b := by
  cases x <;> simp [Except.bind]

theorem except_map_eq_ok {ε α β : Type} {x : Except ε α} {f : α → β} {b : β} :
    x.map f = .ok b ↔ ∃ a, x = .ok a ∧ f a = b := by
  cases x <;> simp [Except.map]

theorem sameControl_fusedPosition {i j : Nat} {s t : State} (h : fusedPosition i j s = .ok t) : SameControl s t := by
  simp only [fusedPosition, except_bind_eq_ok] at h
  obtain ⟨_, _, _, _, _, _, _, _, _, _, h⟩ := h
  exact sameControl_storeG h

theorem sameControl_producerPosition {i j : Nat} {s t : State} (h : producerPosition i j s = .ok t) :
    SameControl s t := by
  simp only [producerPosition, except_bind_eq_ok] at h
  obtain ⟨_, _, h⟩ := h
  exact sameControl_storeF h

theorem sameControl_consumerPosition {i j : Nat} {s t : State} (h : consumerPosition i j s = .ok t) :
    SameControl s t := by
  simp only [consumerPosition, except_bind_eq_ok] at h
  obtain ⟨_, _, h⟩ := h
  exact sameControl_storeG h

theorem sameControl_havocPosition {i j : Nat} {s t : State} (h : havocPosition i j s = .ok t) : SameControl s t :=
  (sameControl_countDraw s).trans (sameControl_storeG h)

theorem sameControl_forValid {body : Nat → Nat → State → Except Fault State}
    (hbody : ∀ i j u v, body i j u = .ok v → SameControl u v) {s t : State} (h : forValid body s = .ok t) :
    SameControl s t :=
  forValid_keeps (SameControl s) (.refl s) (fun i j u v hu huv => hu.trans (hbody i j u v huv)) h

theorem sameControl_producer {s t : State} (h : producer s = .ok t) : SameControl s t :=
  forRange_keeps (fun _ => SameControl s) _ (.refl s)
    (fun _ _ _ _ hu huv => forRange_keeps (fun _ => SameControl s) _ hu
      (fun _ _ _ _ hu huv => hu.trans (sameControl_producerPosition huv)) huv) h

theorem sameControl_stagedEffect {s t : State} (h : stagedEffect s = .ok t) : SameControl s t := by
  simp only [stagedEffect, except_bind_eq_ok, except_map_eq_ok] at h
  obtain ⟨u, hu, v, hv, rfl⟩ := h
  exact (sameControl_setScr _ _).trans ((sameControl_producer hu).trans
    ((sameControl_forValid (fun _ _ _ _ => sameControl_consumerPosition) hv).trans (sameControl_setScr _ _)))

/-- The work of a command changes `Mem`, `Scr` and the count of free values at most. -/
theorem sameControl_effectOf {i : Instr} {s t : State} (h : effectOf i s = .ok t) : SameControl s t := by
  cases i
  · exact sameControl_forValid (fun _ _ _ _ => sameControl_fusedPosition) h
  · exact sameControl_stagedEffect h
  · exact sameControl_stagedEffect h
  · exact sameControl_stagedEffect h

theorem sameControl_havoc {s t : State} (h : havocOutValid s = .ok t) : SameControl s t :=
  sameControl_forValid (fun _ _ _ _ => sameControl_havocPosition) h

/-! ## One step -/

/-- All a step can be: the engine's turn where no event is left, else the next event. -/
theorem step_cases (s : State) :
    (s.events = [] ∧ step s = engineTurn s) ∨ (∃ e rest, s.events = e :: rest ∧ step s = eventStep e rest s) := by
  unfold step
  cases h : s.events with
  | nil => exact .inl ⟨rfl, rfl⟩
  | cons e rest => exact .inr ⟨e, rest, rfl, rfl⟩

end Sys2Proof.Machine
end

