-- ==== Sys2Proof/Laws/Fp.lean ====
section
/-! SUPPORT. The laws of rounding: the value of a number, where the last significand bit stands, and how far one
rounding can be from the exact value. -/

namespace Sys2Proof.Machine

theorem two_zpow_eq_div (e : Int) : (2 : ℚ) ^ e = 2 ^ e.toNat / 2 ^ (-e).toNat := by
  obtain ⟨n, rfl | rfl⟩ := e.eq_nat_or_neg
  · simp
  · simp

theorem fpDen_pos (x : Fp) : 0 < fpDen x := Nat.pow_pos (by decide)

/-- A number is the fraction of its two naturals. -/
theorem fpVal_eq_div (x : Fp) : fpVal x = (fpNum x : ℚ) / (fpDen x : ℚ) := by
  unfold fpVal fpNum fpDen
  rw [two_zpow_eq_div]
  push_cast
  ring

theorem fpVal_nonneg (x : Fp) : 0 ≤ fpVal x := by
  unfold fpVal
  positivity

/-- Rounding a quotient to an integer moves it by at most one half. -/
theorem divNearestEven_near (a : Nat) {b : Nat} (hb : 0 < b) :
    |(divNearestEven a b : ℚ) - (a : ℚ) / b| ≤ 1 / 2 := by
  have hdm : b * (a / b) + a % b = a := Nat.div_add_mod a b
  have hlt : a % b < b := Nat.mod_lt a hb
  have hbq : (0 : ℚ) < b := by exact_mod_cast hb
  have key : 2 * a ≤ 2 * (b * divNearestEven a b) + b ∧ 2 * (b * divNearestEven a b) ≤ 2 * a + b := by
    unfold divNearestEven
    simp only
    split
    · rw [Nat.mul_add]; omega
    · split
      · rw [Nat.mul_add]; omega
      · omega
  obtain ⟨h1, h2⟩ := key
  have h1 : (2 : ℚ) * a ≤ 2 * (b * divNearestEven a b) + b := by exact_mod_cast h1
  have h2 : (2 : ℚ) * (b * divNearestEven a b) ≤ 2 * a + b := by exact_mod_cast h2
  have e : (divNearestEven a b : ℚ) - (a : ℚ) / b = (b * divNearestEven a b - a) / b := by
    field_simp
  rw [e, abs_div, abs_of_pos hbq, div_le_iff₀ hbq, abs_le]
  constructor <;> linarith

/-- The last significand bit stands where the quotient has exactly `p` bits before the point. -/
theorem lastBitExp_bounds {p num den : Nat} (hp : 1 ≤ p) (hn : 0 < num) (hd : 0 < den) :
    (2 : ℚ) ^ (p - 1) * 2 ^ lastBitExp p num den ≤ (num : ℚ) / den ∧
      (num : ℚ) / den < 2 ^ p * 2 ^ lastBitExp p num den := by
  have hdq : (0 : ℚ) < den := by exact_mod_cast hd
  have n1 : (2 : ℚ) ^ (Nat.log2 num) ≤ num := by exact_mod_cast Nat.log2_self_le hn.ne'
  have n2 : (num : ℚ) < 2 ^ (Nat.log2 num + 1) := by exact_mod_cast Nat.lt_log2_self
  have d1 : (2 : ℚ) ^ (Nat.log2 den) ≤ den := by exact_mod_cast Nat.log2_self_le hd.ne'
  have d2 : (den : ℚ) < 2 ^ (Nat.log2 den + 1) := by exact_mod_cast Nat.lt_log2_self
  have hpz : ((p - 1 : Nat) : Int) = (p : Int) - 1 := by omega
  have scale : ∀ k : Int, (2 : ℚ) ^ (p - 1) * 2 ^ (k - ((p : Int) - 1)) = 2 ^ k ∧
      (2 : ℚ) ^ p * 2 ^ (k - ((p : Int) - 1)) = 2 ^ (k + 1) := by
    intro k
    rw [← zpow_natCast, ← zpow_natCast, ← zpow_add₀ (by norm_num), ← zpow_add₀ (by norm_num), hpz]
    constructor <;> congr 1 <;> ring
  unfold lastBitExp
  simp only
  generalize hk : ((Nat.log2 num : Int) - (Nat.log2 den : Int)) = k
  have up : (num : ℚ) / den < 2 ^ (k + 1) := by
    rw [div_lt_iff₀ hdq, ← hk, sub_add_eq_add_sub, zpow_sub₀ (by norm_num), zpow_natCast, div_mul_eq_mul_div,
      lt_div_iff₀ (by positivity)]
    have hz : (2 : ℚ) ^ ((Nat.log2 num : Int) + 1) = 2 ^ (Nat.log2 num + 1) := by
      rw [← zpow_natCast]; norm_cast
    rw [hz]
    nlinarith [pow_pos (show (0 : ℚ) < 2 by norm_num) (Nat.log2 den)]
  have low : (2 : ℚ) ^ (k - 1) ≤ (num : ℚ) / den := by
    rw [le_div_iff₀ hdq, ← hk, sub_sub, zpow_sub₀ (by norm_num), zpow_natCast, div_mul_eq_mul_div,
      div_le_iff₀ (by positivity)]
    have hz : (2 : ℚ) ^ ((Nat.log2 den : Int) + 1) = 2 ^ (Nat.log2 den + 1) := by
      rw [← zpow_natCast]; norm_cast
    rw [hz]
    nlinarith [pow_pos (show (0 : ℚ) < 2 by norm_num) (Nat.log2 num)]
  have test : num * 2 ^ (-k).toNat < den * 2 ^ k.toNat ↔ (num : ℚ) / den < 2 ^ k := by
    rw [two_zpow_eq_div, div_lt_div_iff₀ hdq (by positivity)]
    rw [mul_comm ((2 : ℚ) ^ k.toNat)]
    exact_mod_cast Iff.rfl
  by_cases h : num * 2 ^ (-k).toNat < den * 2 ^ k.toNat
  · rw [if_pos h]
    obtain ⟨s1, s2⟩ := scale (k - 1)
    rw [s1, s2]
    exact ⟨low, by simpa using test.1 h⟩
  · rw [if_neg h]
    obtain ⟨s1, s2⟩ := scale k
    rw [s1, s2]
    exact ⟨not_lt.1 fun hlt => h (test.2 hlt), up⟩

/-- All rounding of a positive quotient can do: a number of the format, at most half a unit of the last place away. -/
theorem roundNearestEven_near {p num den : Nat} (hp : 1 ≤ p) (hn : 0 < num) (hd : 0 < den) :
    (2 ^ (p - 1) ≤ (roundNearestEven p num den).sig ∧ (roundNearestEven p num den).sig < 2 ^ p) ∧
      |fpVal (roundNearestEven p num den) - (num : ℚ) / den| ≤ 2 ^ lastBitExp p num den / 2 := by
  obtain ⟨hlo, hhi⟩ := lastBitExp_bounds (p := p) hp hn hd
  have hdq : (0 : ℚ) < den := by exact_mod_cast hd
  unfold roundNearestEven
  rw [if_neg hn.ne']
  simp only
  generalize lastBitExp p num den = e at hlo hhi ⊢
  have hez : (0 : ℚ) < 2 ^ e := by positivity
  have hB : 0 < den * 2 ^ e.toNat := Nat.mul_pos hd (Nat.pow_pos (by decide))
  have hq : ((num * 2 ^ (-e).toNat : Nat) : ℚ) / ((den * 2 ^ e.toNat : Nat) : ℚ) = (num : ℚ) / den / 2 ^ e := by
    rw [two_zpow_eq_div e]
    push_cast
    field_simp
  have hnear := divNearestEven_near (num * 2 ^ (-e).toNat) hB
  rw [hq] at hnear
  generalize divNearestEven (num * 2 ^ (-e).toNat) (den * 2 ^ e.toNat) = sig at hnear ⊢
  have hlo' : (2 : ℚ) ^ (p - 1) ≤ (num : ℚ) / den / 2 ^ e := by rwa [le_div_iff₀ hez]
  have hhi' : (num : ℚ) / den / 2 ^ e < 2 ^ p := by rwa [div_lt_iff₀ hez]
  obtain ⟨h1, h2⟩ := abs_le.1 hnear
  have hs1 : 2 ^ (p - 1) ≤ sig := by
    have : ((2 ^ (p - 1) : Nat) : ℚ) < (sig : ℚ) + 1 := by push_cast; linarith
    have : 2 ^ (p - 1) < sig + 1 := by exact_mod_cast this
    omega
  have hs2 : sig ≤ 2 ^ p := by
    have : (sig : ℚ) < ((2 ^ p : Nat) : ℚ) + 1 := by push_cast; linarith
    have : sig < 2 ^ p + 1 := by exact_mod_cast this
    omega
  have hval : |(sig : ℚ) * 2 ^ e - (num : ℚ) / den| ≤ 2 ^ e / 2 := by
    have e1 : (sig : ℚ) * 2 ^ e - (num : ℚ) / den = ((sig : ℚ) - (num : ℚ) / den / 2 ^ e) * 2 ^ e := by
      field_simp
    rw [e1, abs_mul, abs_of_pos hez]
    nlinarith
  have hpow : 2 ^ p = 2 * 2 ^ (p - 1) := by
    obtain ⟨k, rfl⟩ : ∃ k, p = k + 1 := ⟨p - 1, by omega⟩
    rw [Nat.add_sub_cancel, pow_succ, mul_comm]
  have hpos : 0 < 2 ^ (p - 1) := Nat.pow_pos (by decide)
  split
  · rename_i hc
    refine ⟨⟨le_refl _, ?_⟩, ?_⟩
    · simp only; omega
    · have : fpVal { sig := 2 ^ (p - 1), exp := e + 1 } = (sig : ℚ) * 2 ^ e := by
        unfold fpVal
        rw [hc, hpow, zpow_add₀ (by norm_num)]
        push_cast
        ring
      rw [this]
      exact hval
  · rename_i hc
    exact ⟨⟨hs1, by simp only; omega⟩, hval⟩

/-- One rounding moves a positive quotient by at most the fraction `1 / 2^p` of itself. -/
theorem roundNearestEven_relative {p num den : Nat} (hp : 1 ≤ p) (hn : 0 < num) (hd : 0 < den) :
    |fpVal (roundNearestEven p num den) - (num : ℚ) / den| ≤ (num : ℚ) / den / 2 ^ p := by
  refine (roundNearestEven_near hp hn hd).2.trans ?_
  have hlo := (lastBitExp_bounds (p := p) hp hn hd).1
  obtain ⟨k, rfl⟩ : ∃ k, p = k + 1 := ⟨p - 1, by omega⟩
  rw [Nat.add_sub_cancel] at hlo
  rw [le_div_iff₀ (by positivity), pow_succ]
  linarith

end Sys2Proof.Machine
end

