-- ==== Sys2Proof/Laws/Region.lean ====
section
/-! SUPPORT. What a loop over the valid region that stores one byte at every position leaves in memory. -/

namespace Sys2Proof.Machine

/-- `mem` is the memory of `s` with the byte `value` gives at the positions of the valid region that `visited` names,
and no other byte changed. -/
structure Written (s : State) (value : Nat → Nat → Byte) (visited : Nat → Nat → Prop) (mem : List Host.Cell) : Prop where
  stored : ∀ r c, r < s.rows - 4 → c < s.cols - 4 → visited r c →
    readByte mem (elementAddr s.outBase s.cols r c) = value r c
  kept : ∀ a, (∀ r c, r < s.rows - 4 → c < s.cols - 4 → visited r c → a ≠ elementAddr s.outBase s.cols r c) →
    readByte mem a = readByte s.mem a

theorem Written.start (s : State) (value : Nat → Nat → Byte) {visited : Nat → Nat → Prop}
    (h : ∀ r c, r < s.rows - 4 → c < s.cols - 4 → ¬ visited r c) : Written s value visited s.mem :=
  ⟨fun r c hr hc hv => absurd hv (h r c hr hc), fun _ _ => rfl⟩

/-- Storing at one more position. -/
theorem Written.store {s : State} {value : Nat → Nat → Byte} {visited visited' : Nat → Nat → Prop}
    {mem : List Host.Cell} (h : Written s value visited mem) {i j : Nat} (hi : i < s.rows - 4) (hj : j < s.cols - 4)
    (hv : ∀ r c, r < s.rows - 4 → c < s.cols - 4 → (visited' r c ↔ visited r c ∨ (r = i ∧ c = j))) :
    Written s value visited' (setByte mem (elementAddr s.outBase s.cols i j) (value i j)) := by
  constructor
  · intro r c hr hc hrc
    rw [readByte_setByte]
    split
    · rename_i heq
      obtain ⟨rfl, rfl⟩ := elementAddr_inj (by omega) (by omega) heq
      rfl
    · rename_i hne
      rcases (hv r c hr hc).1 hrc with hrc | ⟨rfl, rfl⟩
      · exact h.stored r c hr hc hrc
      · exact absurd rfl hne
  · intro a ha
    rw [readByte_setByte, if_neg (Ne.symm (ha i j hi hj ((hv i j hi hj).2 (.inr ⟨rfl, rfl⟩))))]
    exact h.kept a fun r c hr hc hrc => ha r c hr hc ((hv r c hr hc).2 (.inl hrc))

/-- The address of a valid position exists where the output buffer is in range (R123). -/
theorem outAddr_lt {s : State} {i j : Nat} (hi : i < s.rows - 4) (hj : j < s.cols - 4)
    (h : s.outBase + s.rows * s.cols ≤ memSize) : elementAddr s.outBase s.cols i j < memSize := by
  have := element_lt (rows := s.rows) (cols := s.cols) (i := i) (j := j) (by omega) (by omega)
  unfold elementAddr
  omega

/-- A loop over the valid region each of whose positions stores a byte that the stores before it do not change: it
answers, and it has written exactly those bytes. The bytes may depend on the state through what the loop leaves alone:
everything but `Mem` at `OutValid`. -/
theorem forValid_writes {body : Nat → Nat → State → Except Fault State} {s : State} (value : Nat → Nat → Byte)
    (hrange : s.outBase + s.rows * s.cols ≤ memSize)
    (hbody : ∀ i j mem, i < s.rows - 4 → j < s.cols - 4 →
      (∀ a, outValid s a = false → readByte mem a = readByte s.mem a) →
      body i j (setMem mem s) = storeG i j (value i j) (setMem mem s)) :
    ∃ mem, forValid body s = .ok (setMem mem s) ∧ Written s value (fun _ _ => True) mem := by
  have outer := forRange_answers (ε := Fault) (body := fun i si => forRange (s.cols - 4) (fun j sj => body i j sj) si)
    (fun i u => ∃ mem, u = setMem mem s ∧ Written s value (fun r _ => r < i) mem) (s.rows - 4) (s := s)
    ⟨s.mem, rfl, .start s value (by omega)⟩ ?_
  · obtain ⟨t, ht, mem, rfl, hmem⟩ := outer
    exact ⟨mem, ht, ⟨fun r c hr hc _ => hmem.stored r c hr hc hr,
      fun a ha => hmem.kept a fun r c hr hc _ => ha r c hr hc trivial⟩⟩
  · rintro i u hi ⟨mem0, rfl, hmem0⟩
    have inner := forRange_answers (ε := Fault) (body := fun j sj => body i j sj)
      (fun j v => ∃ mem, v = setMem mem s ∧ Written s value (fun r c => r < i ∨ (r = i ∧ c < j)) mem)
      (s.cols - 4) (s := setMem mem0 s) ?_ ?_
    · obtain ⟨t, ht, mem, rfl, hmem⟩ := inner
      refine ⟨_, ht, mem, rfl, fun r c hr hc hv => hmem.stored r c hr hc (by omega),
        fun a ha => hmem.kept a fun r c hr hc hv => ha r c hr hc (by omega)⟩
    · exact ⟨mem0, rfl, fun r c hr hc hv => hmem0.stored r c hr hc (by omega),
        fun a ha => hmem0.kept a fun r c hr hc hv => ha r c hr hc (by omega)⟩
    · rintro j v hj ⟨mem, rfl, hmem⟩
      refine ⟨setMem (setByte mem (elementAddr s.outBase s.cols i j) (value i j)) s, ?_, _, rfl,
        hmem.store hi hj fun r c hr hc => by omega⟩
      rw [hbody i j mem hi hj fun a ha => hmem.kept a fun r c hr hc _ => ?_]
      · exact storeG_eq_ok.2 ⟨outAddr_lt hi hj hrange, rfl⟩
      · rintro rfl
        have := (outValid_iff s _).2 ⟨r, c, hr, hc, rfl⟩
        rw [ha] at this
        exact absurd this (by decide)

end Sys2Proof.Machine
end

