-- ==== Sys2Proof/Laws/HandsOff.lean ====
section
/-! SUPPORT. What the hands-off rule makes of an access by the host, and what the loop that leaves any values at
`OutValid` does, each said once. -/

namespace Sys2Proof.Machine

/-! ## Any values at `OutValid` -/

/-- Where the output buffer exists, the loop answers: each position of the valid region holds the free byte of its own
count, no other byte has changed, and the count has gone on by the number of positions. -/
theorem havocOutValid_eq {s : State} (h : s.outBase + s.rows * s.cols ≤ memSize) :
    ∃ mem, havocOutValid s = .ok { s with mem := mem, drawn := s.drawn + (s.rows - 4) * (s.cols - 4) } ∧
      Written s (fun r c => Config.freeByte (s.drawn + (r * (s.cols - 4) + c))) (fun _ _ => True) mem := by
  have outer := forRange_answers (ε := Fault)
    (body := fun i si => forRange (s.cols - 4) (fun j sj => havocPosition i j sj) si)
    (fun i u => ∃ mem, u = { s with mem := mem, drawn := s.drawn + i * (s.cols - 4) } ∧
      Written s (fun r c => Config.freeByte (s.drawn + (r * (s.cols - 4) + c))) (fun r _ => r < i) mem)
    (s.rows - 4) (s := s) ⟨s.mem, by simp, .start s _ (by omega)⟩ ?_
  · obtain ⟨t, ht, mem, rfl, hmem⟩ := outer
    exact ⟨mem, ht, fun r c hr hc _ => hmem.stored r c hr hc hr,
      fun a ha => hmem.kept a fun r c hr hc _ => ha r c hr hc trivial⟩
  · rintro i u hi ⟨mem0, rfl, hmem0⟩
    have inner := forRange_answers (ε := Fault) (body := fun j sj => havocPosition i j sj)
      (fun j v => ∃ mem, v = { s with mem := mem, drawn := s.drawn + (i * (s.cols - 4) + j) } ∧
        Written s (fun r c => Config.freeByte (s.drawn + (r * (s.cols - 4) + c)))
          (fun r c => r < i ∨ (r = i ∧ c < j)) mem)
      (s.cols - 4) (s := { s with mem := mem0, drawn := s.drawn + i * (s.cols - 4) })
      ⟨mem0, rfl, fun r c hr hc hv => hmem0.stored r c hr hc (by omega),
        fun a ha => hmem0.kept a fun r c hr hc hv => ha r c hr hc (.inl hv)⟩ ?_
    · obtain ⟨t, ht, mem, rfl, hmem⟩ := inner
      refine ⟨_, ht, mem, by rw [Nat.succ_mul], fun r c hr hc hv => hmem.stored r c hr hc (by omega),
        fun a ha => hmem.kept a fun r c hr hc hv => ha r c hr hc (by omega)⟩
    · rintro j v hj ⟨mem, rfl, hmem⟩
      exact ⟨_, storeG_eq_ok.2 ⟨outAddr_lt (s := s) hi hj h, rfl⟩, _, rfl,
        hmem.store hi hj fun r c hr hc => by omega⟩

/-! ## Free bytes at some addresses -/

theorem FreeExactly.none (mem : List Host.Cell) (first : Nat) : FreeExactly mem (fun _ => False) first 0 mem :=
  ⟨fun _ => 0, by simp, by simp, by simp⟩

theorem FreeExactly.single (mem : List Host.Cell) (b first : Nat) :
    FreeExactly mem (fun a => a = b) first 1 (setByte mem b (Config.freeByte first)) :=
  ⟨fun _ => first, by rintro a rfl; simp [readByte_setByte], by rintro a b rfl rfl _; rfl,
    fun a ha => by rw [readByte_setByte, if_neg (Ne.symm ha)]⟩

theorem FreeExactly.congr {mem mem' : List Host.Cell} {p q : Nat → Prop} {first k : Nat}
    (h : FreeExactly mem p first k mem') (hpq : ∀ a, p a ↔ q a) : FreeExactly mem q first k mem' := by
  obtain rfl : p = q := funext fun a => propext (hpq a)
  exact h

/-- Free bytes at some addresses and then, the count going on, at others. -/
theorem FreeExactly.trans {mem0 mem1 mem2 : List Host.Cell} {p q : Nat → Prop} {first k l : Nat}
    (h1 : FreeExactly mem0 p first k mem1) (h2 : FreeExactly mem1 q (first + k) l mem2) :
    FreeExactly mem0 (fun a => p a ∨ q a) first (k + l) mem2 := by
  classical
  obtain ⟨d1, r1, i1, k1⟩ := h1
  obtain ⟨d2, r2, i2, k2⟩ := h2
  refine ⟨fun a => if q a then d2 a else d1 a, fun a ha => ?_, fun a b ha hb hab => ?_, fun a ha => ?_⟩
  · by_cases hq : q a
    · obtain ⟨_, _, h⟩ := r2 a hq
      simp only [hq, if_true, h, and_true]
      omega
    · obtain ⟨_, _, h⟩ := r1 a (ha.resolve_right hq)
      simp only [hq, if_false, k2 a hq, h, and_true]
      omega
  · by_cases hqa : q a <;> by_cases hqb : q b <;> simp only [hqa, hqb, if_true, if_false] at hab
    · exact i2 a b hqa hqb hab
    · have := r2 a hqa; have := r1 b (hb.resolve_right hqb); omega
    · have := r1 a (ha.resolve_right hqa); have := r2 b hqb; omega
    · exact i1 a b (ha.resolve_right hqa) (hb.resolve_right hqb) hab
  · rw [k2 a fun h => ha (.inr h), k1 a fun h => ha (.inl h)]

/-- What the loop over `OutValid` leaves is free bytes at exactly `OutValid`. -/
theorem FreeExactly.of_written {s : State} {mem : List Host.Cell}
    (h : Written s (fun r c => Config.freeByte (s.drawn + (r * (s.cols - 4) + c))) (fun _ _ => True) mem) :
    FreeExactly s.mem (fun a => outValid s a = true) s.drawn ((s.rows - 4) * (s.cols - 4)) mem := by
  have hd : ∀ r c, c < s.cols - 4 → (elementAddr s.outBase s.cols r c - s.outBase) / s.cols = r ∧
      (elementAddr s.outBase s.cols r c - s.outBase) % s.cols = c := fun r c hc => by
    have he : elementAddr s.outBase s.cols r c - s.outBase = s.cols * r + c := by
      unfold elementAddr; rw [Nat.mul_comm]; omega
    rw [he, Nat.mul_add_div (by omega), Nat.mul_add_mod, Nat.div_eq_of_lt (by omega), Nat.mod_eq_of_lt (by omega)]
    exact ⟨rfl, rfl⟩
  refine ⟨fun a => s.drawn + ((a - s.outBase) / s.cols * (s.cols - 4) + (a - s.outBase) % s.cols),
    fun a ha => ?_, fun a b ha hb hab => ?_, fun a ha => h.kept a fun r c hr hc _ hrc => ?_⟩
  · obtain ⟨r, c, hr, hc, rfl⟩ := (outValid_iff s a).1 ha
    have := element_lt hr hc
    simp only [hd r c hc, h.stored r c hr hc trivial, and_true]
    omega
  · obtain ⟨r, c, hr, hc, rfl⟩ := (outValid_iff s a).1 ha
    obtain ⟨r', c', hr', hc', rfl⟩ := (outValid_iff s b).1 hb
    simp only [hd r c hc, hd r' c' hc'] at hab
    obtain ⟨rfl, rfl⟩ := elementAddr_inj (base := 0) hc hc' (by unfold elementAddr; omega :
      elementAddr 0 (s.cols - 4) r c = elementAddr 0 (s.cols - 4) r' c')
    rfl
  · exact ha ((outValid_iff s a).2 ⟨r, c, hr, hc, hrc⟩)

/-! ## Which accesses break the rule -/

/-- An access touches no command completed unseen exactly where it touches none of them. -/
theorem touchesUnseen_eq_false {touches : State → Bool} {s : State} :
    touchesUnseen touches s = false ↔ ∀ o ∈ s.unseen, touches (useOperands o s) = false := by
  simp [touchesUnseen]

theorem touchesUnseen_eq_true {touches : State → Bool} {s : State} :
    touchesUnseen touches s = true ↔ ∃ o ∈ s.unseen, touches (useOperands o s) = true := by
  simp [touchesUnseen]

/-- An access breaks nothing exactly where it touches neither the running command nor one completed unseen. -/
theorem breaksHandsOff_eq_false {touches : State → Bool} {s : State} :
    breaksHandsOff touches s = false ↔
      (s.seq = .busy → touches s = false) ∧ ∀ o ∈ s.unseen, touches (useOperands o s) = false := by
  rw [← touchesUnseen_eq_false]
  simp [breaksHandsOff]

/-- An access that touches a command completed unseen breaks the rule. -/
theorem breaksHandsOff_of_touches {touches : State → Bool} {s : State} {o : Operands} (ho : o ∈ s.unseen)
    (h : touches (useOperands o s) = true) : breaksHandsOff touches s = true := by
  rw [breaksHandsOff, touchesUnseen_eq_true.2 ⟨o, ho, h⟩, Bool.or_true]

/-! ## Which bytes a violation makes unspecified -/

/-- A command has read a byte at one of the addresses exactly where one is in its input footprint (R32). -/
theorem readsSome_iff {addrs : Nat → Bool} {s : State} :
    readsSome addrs s = true ↔ ∃ a, inFootprint s a = true ∧ addrs a = true := by
  simp only [readsSome, List.any_eq_true, List.mem_range, inFootprint_iff]
  constructor
  · rintro ⟨k, hk, h⟩
    exact ⟨s.inBase + k, by omega, h⟩
  · rintro ⟨a, ha, h⟩
    exact ⟨a - s.inBase, by omega, by rwa [show s.inBase + (a - s.inBase) = a by omega]⟩

/-- All one command can do to the unspecified bytes: outside its `OutValid` they stay what they are; inside, they are
unspecified exactly where the access touches it or it has read one. -/
theorem spoilStep_eq (touches : State → Bool) (addrs : Nat → Bool) (s : State) (a : Nat) :
    spoilStep touches addrs s a = if outValid s a then touches s || readsSome addrs s else addrs a := by
  unfold spoilStep
  cases hv : outValid s a <;> cases ht : touches s <;> cases hr : readsSome addrs s <;> simp [hv]

theorem spoilAll_append (touches : State → Bool) (s : State) (os ps : List Operands) (addrs : Nat → Bool) :
    spoilAll touches s (os ++ ps) addrs = spoilAll touches s ps (spoilAll touches s os addrs) := by
  induction os generalizing addrs with
  | nil => rfl
  | cons o rest ih => exact ih _

/-- A byte that none of some commands has written stays what it is. -/
theorem spoilAll_of_unwritten {touches : State → Bool} {s : State} {os : List Operands} {addrs : Nat → Bool} {a : Nat}
    (h : ∀ o ∈ os, outValid (useOperands o s) a = false) : spoilAll touches s os addrs a = addrs a := by
  induction os generalizing addrs with
  | nil => rfl
  | cons o rest ih =>
    rw [spoilAll, ih fun p hp => h p (.tail _ hp), spoilStep_eq, h o (.head _)]
    simp

/-- Whether a byte is unspecified is up to the last command that has written it: it is so exactly where the access
touches that command, or that command has read a byte its predecessors left unspecified. -/
theorem spoilAll_last {touches : State → Bool} {s : State} {pre post : List Operands} {o : Operands}
    {addrs : Nat → Bool} {a : Nat} (ho : outValid (useOperands o s) a = true)
    (h : ∀ p ∈ post, outValid (useOperands p s) a = false) :
    spoilAll touches s (pre ++ o :: post) addrs a =
      (touches (useOperands o s) || readsSome (spoilAll touches s pre addrs) (useOperands o s)) := by
  rw [spoilAll_append, spoilAll, spoilAll_of_unwritten h, spoilStep_eq, if_pos ho]

/-- Which bytes an access makes unspecified depends on the completed commands and on which of them it touches only. -/
theorem spoiled_congr {touches : State → Bool} {s t : State} (hu : t.unseen = s.unseen)
    (ht : ∀ o, touches (useOperands o t) = touches (useOperands o s)) : spoiled touches t = spoiled touches s := by
  have key : ∀ (os : List Operands) (addrs : Nat → Bool), spoilAll touches t os addrs = spoilAll touches s os addrs := by
    intro os
    induction os with
    | nil => exact fun _ => rfl
    | cons o rest ih =>
      intro addrs
      have hstep : spoilStep touches addrs (useOperands o t) = spoilStep touches addrs (useOperands o s) := by
        unfold spoilStep
        rw [ht o]
        rfl
      rw [spoilAll, spoilAll, hstep, ih]
  rw [spoiled, spoiled, hu, key]

/-- An unspecified byte is one that some completed command has written. -/
theorem outValid_of_spoiled {touches : State → Bool} {s : State} {a : Nat} (h : spoiled touches s a = true) :
    ∃ o ∈ s.unseen, outValid (useOperands o s) a = true := by
  by_contra hc
  simp only [not_exists, not_and, Bool.not_eq_true] at hc
  rw [spoiled, spoilAll_of_unwritten hc] at h
  exact absurd h (by decide)

/-- An access that touches no command completed unseen leaves no byte unspecified. -/
theorem spoiled_of_untouched {touches : State → Bool} {s : State} (h : touchesUnseen touches s = false) (a : Nat) :
    spoiled touches s a = false := by
  have key : ∀ (os : List Operands) (addrs : Nat → Bool), (∀ o ∈ os, touches (useOperands o s) = false) →
      (∀ b, addrs b = false) → spoilAll touches s os addrs a = false := by
    intro os
    induction os with
    | nil => exact fun addrs _ ha => ha a
    | cons o rest ih =>
      intro addrs ho ha
      refine ih _ (fun p hp => ho p (.tail _ hp)) fun b => ?_
      have hr : readsSome addrs (useOperands o s) = false := by
        rw [Bool.eq_false_iff, ne_eq, readsSome_iff]
        rintro ⟨c, _, hc⟩
        simp [ha c] at hc
      simp [spoilStep_eq, ho o (.head _), hr, ha b]
  exact key _ _ (touchesUnseen_eq_false.1 h) fun _ => rfl

/-- A completed command keeps its results (R39 (b)) where the access does not touch it, it has read nothing another
command completed unseen had written, and no later one has written there. -/
theorem spoiled_of_disjoint {touches : State → Bool} {s : State} {pre post : List Operands} {o : Operands} {a : Nat}
    (hs : s.unseen = pre ++ o :: post) (ht : touches (useOperands o s) = false)
    (hpre : ∀ p ∈ pre, ∀ b, inFootprint (useOperands o s) b = true → outValid (useOperands p s) b = false)
    (hpost : ∀ p ∈ post, outValid (useOperands p s) a = false) (ho : outValid (useOperands o s) a = true) :
    spoiled touches s a = false := by
  rw [spoiled, hs, spoilAll_last ho hpost, ht, Bool.false_or, Bool.eq_false_iff, ne_eq, readsSome_iff]
  rintro ⟨b, hb, h⟩
  rw [spoilAll_of_unwritten fun p hp => hpre p hp b hb] at h
  exact absurd h (by decide)

/-! ## What a violation does -/

/-- An access that touches no command completed unseen has no effect beyond itself but that a touch of the running one
is remembered. -/
theorem breakHandsOff_of_unseen {touches : State → Bool} {s : State} (h : touchesUnseen touches s = false) :
    breakHandsOff touches s = .ok { s with tainted := s.tainted || (decide (s.seq = .busy) && touches s) } := by
  simp only [breakHandsOff, h, Bool.false_eq_true, if_false, Except.map]
  split
  · rename_i hb
    simp [taint, hb.1, hb.2]
  · rename_i hb
    rw [show (decide (s.seq = .busy) && touches s) = false by simpa using hb, Bool.or_false]

/-- An access that breaks nothing has no effect beyond itself. -/
theorem breakHandsOff_of_not_breaks {touches : State → Bool} {s : State} (h : breaksHandsOff touches s = false) :
    breakHandsOff touches s = .ok s := by
  obtain ⟨h1, h2⟩ := Bool.or_eq_false_iff.1 h
  rw [breakHandsOff_of_unseen h2, h1, Bool.or_false]

theorem sameControl_havocPositionAt {addrs : Nat → Bool} {i j : Nat} {s t : State}
    (h : havocPositionAt addrs i j s = .ok t) : SameControl s t := by
  unfold havocPositionAt at h
  split at h
  · exact sameControl_havocPosition h
  · obtain rfl : s = t := by simpa using h
    exact .refl s

/-- All a violation can change of a completed command: `Mem` and the count of free values. -/
theorem sameControl_havocCommand {addrs : Nat → Bool} {o : Operands} {s t : State}
    (h : havocCommand addrs o s = .ok t) : SameControl s t := by
  simp only [havocCommand, except_map_eq_ok] at h
  obtain ⟨u, hu, rfl⟩ := h
  obtain ⟨h1, _, _, _, _, h6, h7, h8, h9, h10, h11, h12, h13⟩ :=
    sameControl_forValid (fun _ _ _ _ => sameControl_havocPositionAt) hu
  exact ⟨h1, rfl, rfl, rfl, rfl, h6, h7, h8, h9, h10, h11, h12, h13⟩

theorem sameControl_havocCommands {addrs : Nat → Bool} {os : List Operands} {s t : State}
    (h : havocCommands addrs os s = .ok t) : SameControl s t := by
  induction os generalizing s with
  | nil => obtain rfl : s = t := by simpa [havocCommands] using h
           exact .refl s
  | cons o rest ih =>
    simp only [havocCommands, except_bind_eq_ok] at h
    obtain ⟨u, hu, h⟩ := h
    exact (sameControl_havocCommand hu).trans (ih h)

/-- A byte that a position of the loop changes is the one at that position, and at one of the addresses. -/
theorem havocPositionAt_changes {addrs : Nat → Bool} {i j : Nat} {s t : State} (h : havocPositionAt addrs i j s = .ok t)
    {a : Nat} (hn : readByte t.mem a ≠ readByte s.mem a) : addrs a = true := by
  unfold havocPositionAt at h
  split at h
  · rename_i hp
    rw [havocPosition, storeG_eq_ok] at h
    by_cases he : elementAddr s.outBase s.cols i j = a
    · exact he ▸ hp
    · refine absurd ?_ hn
      rw [h.2, setMem_mem, readByte_setByte]
      exact if_neg he
  · obtain rfl : s = t := by simpa using h
    exact absurd rfl hn

/-- Where the work on some completed commands answers, a byte it changes is at one of the addresses. -/
theorem havocCommands_changes {addrs : Nat → Bool} {os : List Operands} {s t : State}
    (h : havocCommands addrs os s = .ok t) {a : Nat} (hn : readByte t.mem a ≠ readByte s.mem a) : addrs a = true := by
  by_contra hc
  refine hn ?_
  clear hn
  induction os generalizing s with
  | nil => obtain rfl : s = t := by simpa [havocCommands] using h
           rfl
  | cons o rest ih =>
    simp only [havocCommands, except_bind_eq_ok, havocCommand, except_map_eq_ok] at h
    obtain ⟨_, ⟨u, hu, rfl⟩, h⟩ := h
    refine (ih h).trans (forValid_keeps (s := useOperands o s) (t := u)
      (fun v => readByte v.mem a = readByte s.mem a) rfl (fun i j v w hv hvw => ?_) hu)
    by_contra hw
    exact hc (havocPositionAt_changes hvw fun he => hw (he.trans hv))

/-- Where an access answers, a byte it changes beyond its own is one it makes unspecified, by touching a command completed
unseen. -/
theorem breakHandsOff_changes {touches : State → Bool} {s t : State} (h : breakHandsOff touches s = .ok t) {a : Nat}
    (hn : readByte t.mem a ≠ readByte s.mem a) : touchesUnseen touches s = true ∧ spoiled touches s a = true := by
  simp only [breakHandsOff, except_map_eq_ok] at h
  obtain ⟨u, hu, rfl⟩ := h
  have hn : readByte u.mem a ≠ readByte s.mem a := by split at hn <;> exact hn
  split at hu
  · rename_i hc
    exact ⟨hc, havocCommands_changes hu hn⟩
  · obtain rfl : s = u := by simpa using hu
    exact absurd rfl hn

/-- One position of the valid region of a command whose output buffer exists. -/
theorem havocPositionAt_eq {addrs : Nat → Bool} {i j : Nat} {s : State} (hi : i < s.rows - 4) (hj : j < s.cols - 4)
    (h : s.outBase + s.rows * s.cols ≤ memSize) (mem : List Host.Cell) (drawn : Nat) :
    ∃ mem' count, havocPositionAt addrs i j { s with mem := mem, drawn := drawn } =
        .ok { s with mem := mem', drawn := drawn + count } ∧
      FreeExactly mem (fun a => addrs a = true ∧ a = elementAddr s.outBase s.cols i j) drawn count mem' := by
  by_cases hp : addrs (elementAddr s.outBase s.cols i j) = true
  · refine ⟨_, 1, ?_, (FreeExactly.single mem (elementAddr s.outBase s.cols i j) drawn).congr fun a =>
      ⟨fun ha => ⟨ha ▸ hp, ha⟩, fun ha => ha.2⟩⟩
    exact (if_pos hp).trans (storeG_eq_ok.2 ⟨outAddr_lt (s := s) hi hj h, rfl⟩)
  · exact ⟨mem, 0, if_neg hp, (FreeExactly.none mem drawn).congr fun a =>
      ⟨False.elim, fun ⟨h1, h2⟩ => hp (h2 ▸ h1)⟩⟩

/-- The loop over the valid region of a command whose output buffer exists answers, and leaves free bytes at exactly those
of the addresses that are in `OutValid`. -/
theorem forValid_havocAt {addrs : Nat → Bool} {s : State} (h : s.outBase + s.rows * s.cols ≤ memSize) :
    ∃ mem count, forValid (havocPositionAt addrs) s = .ok { s with mem := mem, drawn := s.drawn + count } ∧
      FreeExactly s.mem (fun a => addrs a = true ∧ outValid s a = true) s.drawn count mem := by
  have outer := forRange_answers (ε := Fault)
    (body := fun i si => forRange (s.cols - 4) (fun j sj => havocPositionAt addrs i j sj) si)
    (fun i u => ∃ mem count, u = { s with mem := mem, drawn := s.drawn + count } ∧
      FreeExactly s.mem (fun a => addrs a = true ∧ ∃ r c, r < i ∧ c < s.cols - 4 ∧ a = elementAddr s.outBase s.cols r c)
        s.drawn count mem)
    (s.rows - 4) (s := s) ⟨s.mem, 0, rfl, (FreeExactly.none _ _).congr (by simp)⟩ ?_
  · obtain ⟨t, ht, mem, count, rfl, hf⟩ := outer
    exact ⟨mem, count, ht, hf.congr fun a => and_congr_right fun _ => by
      rw [outValid_iff]⟩
  · rintro i u hi ⟨mem0, k, rfl, hf0⟩
    have inner := forRange_answers (ε := Fault) (body := fun j sj => havocPositionAt addrs i j sj)
      (fun j v => ∃ mem count, v = { s with mem := mem, drawn := s.drawn + count } ∧
        FreeExactly s.mem (fun a => addrs a = true ∧ ∃ r c, (r < i ∨ (r = i ∧ c < j)) ∧ c < s.cols - 4 ∧
          a = elementAddr s.outBase s.cols r c) s.drawn count mem)
      (s.cols - 4) (s := { s with mem := mem0, drawn := s.drawn + k })
      ⟨mem0, k, rfl, hf0.congr (by simp)⟩ ?_
    · obtain ⟨t, ht, mem, count, rfl, hf⟩ := inner
      exact ⟨_, ht, mem, count, rfl, hf.congr fun a => and_congr_right fun _ =>
        ⟨fun ⟨r, c, h1, h2, h3⟩ => ⟨r, c, by omega, h2, h3⟩, fun ⟨r, c, h1, h2, h3⟩ => ⟨r, c, by omega, h2, h3⟩⟩⟩
    · rintro j v hj ⟨mem1, k1, rfl, hf1⟩
      obtain ⟨mem2, k2, h2, hf2⟩ := havocPositionAt_eq (addrs := addrs) hi hj h mem1 (s.drawn + k1)
      refine ⟨_, h2, mem2, k1 + k2, by rw [Nat.add_assoc], (hf1.trans hf2).congr fun a => ?_⟩
      rw [← and_or_left]
      refine and_congr_right fun _ => ⟨?_, ?_⟩
      · rintro (⟨r, c, h1, h2, h3⟩ | h3)
        · exact ⟨r, c, by omega, h2, h3⟩
        · exact ⟨i, j, by omega, hj, h3⟩
      · rintro ⟨r, c, h1, h2, h3⟩
        by_cases hrc : r = i ∧ c = j
        · exact .inr (by rw [h3, hrc.1, hrc.2])
        · exact .inl ⟨r, c, by omega, h2, h3⟩

/-- One completed command whose output buffer exists. -/
theorem havocCommand_eq {addrs : Nat → Bool} {o : Operands} {s : State}
    (h : (useOperands o s).outBase + (useOperands o s).rows * (useOperands o s).cols ≤ memSize) :
    ∃ mem count, havocCommand addrs o s = .ok { s with mem := mem, drawn := s.drawn + count } ∧
      FreeExactly s.mem (fun a => addrs a = true ∧ outValid (useOperands o s) a = true) s.drawn count mem := by
  obtain ⟨mem, count, hm, hf⟩ := forValid_havocAt (addrs := addrs) h
  exact ⟨mem, count, by rw [havocCommand, hm]; rfl, hf⟩

/-- Commands whose output buffers exist: the work answers; each of the addresses in their `OutValid` holds a free byte of
its own, and no other byte has changed. -/
theorem havocCommands_eq (addrs : Nat → Bool) : ∀ (os : List Operands) (s : State),
    (∀ o ∈ os, (useOperands o s).outBase + (useOperands o s).rows * (useOperands o s).cols ≤ memSize) →
    ∃ mem count, havocCommands addrs os s = .ok { s with mem := mem, drawn := s.drawn + count } ∧
      FreeExactly s.mem (fun a => addrs a = true ∧ ∃ o ∈ os, outValid (useOperands o s) a = true) s.drawn count mem
  | [], s, _ => ⟨s.mem, 0, rfl, (FreeExactly.none _ _).congr (by simp)⟩
  | o :: rest, s, h => by
    obtain ⟨mem0, k, h0, f0⟩ := havocCommand_eq (addrs := addrs) (h o (.head _))
    obtain ⟨mem, l, h1, f1⟩ := havocCommands_eq addrs rest { s with mem := mem0, drawn := s.drawn + k }
      fun p hp => h p (.tail _ hp)
    refine ⟨mem, k + l, ?_, (f0.trans f1).congr fun a => ?_⟩
    · rw [havocCommands, h0, Except.bind, h1, Nat.add_assoc]
    · rw [← and_or_left]
      simp only [List.exists_mem_cons_iff]
      rfl

/-- All an access can do beyond itself, where the output buffers of the completed commands exist: free bytes at exactly
the addresses it makes unspecified, and the mark of a violation where it touches a command that runs. -/
theorem breakHandsOff_eq {touches : State → Bool} {s : State}
    (h : ∀ o ∈ s.unseen, (useOperands o s).outBase + (useOperands o s).rows * (useOperands o s).cols ≤ memSize) :
    ∃ mem count, breakHandsOff touches s = .ok { s with
        mem := mem, drawn := s.drawn + count
        tainted := s.tainted || (decide (s.seq = .busy) && touches s) } ∧
      FreeExactly s.mem (fun a => spoiled touches s a = true) s.drawn count mem := by
  cases hu : touchesUnseen touches s with
  | false =>
    exact ⟨s.mem, 0, breakHandsOff_of_unseen hu,
      (FreeExactly.none _ _).congr fun a => by simp [spoiled_of_untouched hu a]⟩
  | true =>
    obtain ⟨mem, count, hm, hf⟩ := havocCommands_eq (spoiled touches s) s.unseen s h
    refine ⟨mem, count, ?_, hf.congr fun a => and_iff_left_of_imp outValid_of_spoiled⟩
    simp only [breakHandsOff, hu, if_true, hm, Except.map]
    split
    · rename_i hb
      simp [taint, hb.1, hb.2]
    · rename_i hb
      rw [show (decide (s.seq = .busy) && touches s) = false by simpa using hb, Bool.or_false]

end Sys2Proof.Machine
end

