-- ==== Sys2Proof/Laws/PerInstr.lean ====
section
/-! SUPPORT. Statements made per instruction: each command's word is legal, and its `OP` alone finds it. -/

namespace Sys2Proof.Laws.WordOfCommand

/-- The command is well-formed, its word is legal (R55), and its `OP` finds the command and no other (R53, R62). -/
def Statement (i : Instr) : Prop :=
  i.wellFormed = true ∧ legalWord (encode i) = true ∧ ∀ op, decodeOp op = some i ↔ op = opField (encode i)

theorem blurFused : Statement .blurFused := ⟨rfl, rfl, fun _ => Machine.decodeOp_eq_some⟩

theorem blurStaged : Statement .blurStaged := ⟨rfl, rfl, fun _ => Machine.decodeOp_eq_some⟩

theorem computeAtStoreAt : Statement .computeAtStoreAt := ⟨rfl, rfl, fun _ => Machine.decodeOp_eq_some⟩

theorem computeAtStoreRoot : Statement .computeAtStoreRoot := ⟨rfl, rfl, fun _ => Machine.decodeOp_eq_some⟩

end Sys2Proof.Laws.WordOfCommand
end

