-- ==== Sys2Proof/Laws/Step.lean ====
section
/-! SUPPORT. What each event can do, said once: the port, the engine's turn, a poll, reset, the host's accesses. -/

namespace Sys2Proof.Machine

/-! ## Runs -/

@[simp] theorem runSteps_zero (s : State) : runSteps 0 s = .next s := rfl

/-- A run of one step more begins with a step that answers. -/
theorem runSteps_succ {k : Nat} {s t : State} (h : step s = .next t) : runSteps (k + 1) s = runSteps k t := by
  have h : Sys2Proof.core.step s = .next t := h
  simp only [runSteps, Host.Core.run, h]
  rfl

/-! ## The register port -/

/-- All a register write can do: dropped (R18), START of a word (R60), or one operand register. -/
theorem regWrite_cases (r : Reg) (v : Word) (s : State) :
    (¬ openState s ∧ regWrite r v s = .next s) ∨ (openState s ∧ r = .cmd ∧ regWrite r v s = startWord v s) ∨
      (openState s ∧ r ≠ .cmd ∧ regWrite r v s = .next (writeOperand r v s)) := by
  unfold regWrite openState
  by_cases hr : r = .cmd <;> cases hs : s.seq <;> simp [hr]

/-- A word written to `CMD` in `IDLE` or `DONE` is START, whether it is a command's or not (R60). -/
theorem startWord_eq {w : Word} {s : State} (h : openState s) : startWord w s = .next (start w s) := by
  unfold startWord
  cases hd : decode w with
  | error e => rfl
  | ok i =>
    have hw : w = encode i := by
      unfold decode at hd
      split at hd
      · simp at hd
      · rename_i hr
        simp only [ne_eq, not_not] at hr
        split at hd
        · rename_i j hj
          obtain rfl : j = i := by simpa using hd
          exact word_ext (hr.trans (by cases j <;> rfl)) (decodeOp_eq_some.1 hj)
        · simp at hd
    subst hw
    change exec i s = _
    rw [exec_eq]
    rcases h with h | h <;> simp [commandStep, h]

/-- All a read of a register can do (R16, R153). -/
theorem regRead_eq (r : Reg) (s : State) : regRead r s = { s with
    out := s.out ++ [.reg r (readReg r s)]
    unseen := if r = .status ∧ s.seq = .done then [] else s.unseen } := by
  unfold regRead noteRead
  split <;> simp_all [respond, seeDone]

/-! ## The engine's turn -/

/-- All the engine's turn can be: COMPLETE of the command of `CMD[7:0]`, or nothing (R61). -/
theorem engineTurn_cases (s : State) :
    (s.seq = .busy ∧ engineTurn s = completeStep s) ∨ (s.seq ≠ .busy ∧ engineTurn s = .next s) := by
  unfold engineTurn
  by_cases h : s.seq = .busy <;> simp [h]

/-- All COMPLETE can be where it answers: the end of the work of the command, or of the unspecified one. -/
theorem completeStep_eq_next {s t : State} (hb : s.seq = .busy) (h : completeStep s = .next t) :
    ∃ i u, decodeOp (opField s.cmd) = some i ∧
      (if s.tainted then havocOutValid s else effectOf i s) = .ok u ∧ t = finish u := by
  unfold completeStep at h
  split at h
  · rename_i i hi
    rw [exec_eq] at h
    rcases commandStep_eq_next h with ⟨ho, _⟩ | ⟨_, u, hu, ht⟩ | ⟨hf, _⟩
    · rcases ho with ho | ho <;> simp [ho] at hb
    · exact ⟨i, u, hi, hu, ht⟩
    · simp [hf] at hb
  · simp at h

/-! ## Reset -/

/-- All reset can be where it answers: the registers at their reset values over the memory as it was, or over the
memory of an abandoned command (R150, R151). -/
theorem resetEvent_eq_next {s t : State} (h : resetEvent s = .next t) :
    (s.seq ≠ .busy ∧ t = resetEngine s) ∨ (s.seq = .busy ∧ ∃ u, havocOutValid s = .ok u ∧ t = resetEngine u) := by
  unfold resetEvent at h
  by_cases hb : s.seq = .busy
  · rw [if_pos hb] at h
    cases hu : havocOutValid s with
    | error e => simp [hu, Except.map, toOutcome] at h
    | ok u => exact .inr ⟨hb, u, rfl, by simpa [hu, Except.map, toOutcome] using h.symm⟩
  · rw [if_neg hb] at h
    exact .inl ⟨hb, by simpa using h.symm⟩

/-! ## The host's accesses to memory -/

/-- A store by the host that breaks nothing changes its byte (R30). -/
theorem hostWrite_of_not_breaks {a : Word} {s : State} (h : breaksHandsOff (storeTouches a.toNat) s = false)
    (v : Byte) : hostWrite a v s = .next (setMem (setByte s.mem a.toNat v) s) := by
  unfold hostWrite
  rw [breakHandsOff_of_not_breaks (s := setMem (setByte s.mem a.toNat v) s) h]
  rfl

/-- All a load by the host can be: of any value, where it breaks R153; else of the byte, with nothing changed. -/
theorem hostRead_cases (a : Word) (s : State) :
    (breaksHandsOff (loadTouches a.toNat) s = true ∧ hostRead a s =
        toOutcome (breakHandsOff (loadTouches a.toNat) (countDraw (respond (.byte a (Config.freeByte s.drawn)) s)))) ∨
      (breaksHandsOff (loadTouches a.toNat) s = false ∧
        hostRead a s = .next (respond (.byte a (readByte s.mem a.toNat)) s)) := by
  unfold hostRead
  cases h : breaksHandsOff (loadTouches a.toNat) s <;> simp

/-! ## Polling -/

/-- All a poll can do: COMPLETE where it has no read left in `BUSY`, else a read of `STATUS`, after which the poll stays
in `IDLE` and `BUSY` and is over in `DONE` and `FAULT` (R57). -/
theorem pollStep_cases (spins : Nat) (rest : List Event) (s : State) :
    (s.seq = .busy ∧ spins = 0 ∧ pollStep spins rest s = completeStep (setEvents (.poll 0 :: rest) s)) ∨
      ∃ es, pollStep spins rest s = .next (setEvents es (regRead .status s)) ∧
        (s.seq = .done ∨ s.seq = .fault → es = rest) ∧ (s.seq = .idle → es = .poll spins :: rest) ∧
        (s.seq = .busy → ∃ k, spins = k + 1 ∧ es = .poll k :: rest) := by
  unfold pollStep
  cases hs : s.seq <;> cases spins <;> simp

end Sys2Proof.Machine
end

