-- ==== Sys2Proof/Tests/Slice0.lean ====
section
/-! SUPPORT. Tests, with results taken from spec/95_test_vectors.md (named at each), and for every statement with
hypotheses one theorem that shows a state and operands which meet them together. -/

namespace Sys2Proof.Tests

open Sys2Proof Sys2Proof.Machine

-- One theorem at a time: kernel evaluations that wait for one another each hold a thread.
set_option Elab.async false

/-! ## Words (R52, R53, R55) -/

theorem test_reserved_bit_is_ill_formed : reservedClear 0x00000101#32 = false := by decide
theorem test_op_zero_is_ill_formed : opAssigned 0x00000000#32 = false := by decide
theorem test_op_five_is_ill_formed : opAssigned 0x00000005#32 = false := by decide
theorem test_top_bit_makes_word_illegal : legalWord 0x80000002#32 = false := by decide
theorem test_decode_fused : decode 0b00000000000000000000000000000001#32 = .ok .blurFused := by rfl
theorem test_decode_staged : decode 0b00000000000000000000000000000010#32 = .ok .blurStaged := by rfl
theorem test_decode_at : decode 0b00000000000000000000000000000011#32 = .ok .computeAtStoreAt := by rfl
theorem test_decode_root : decode 0b00000000000000000000000000000100#32 = .ok .computeAtStoreRoot := by rfl
theorem test_decode_reserved_bit : decode 0x00000101#32 = .error .reservedBitSet := by rfl
theorem test_decode_op_five : decode 0x00000005#32 = .error (.reservedOp 5#8) := by rfl
theorem test_encode_root : encode .computeAtStoreRoot = 0x00000004#32 := by rfl
theorem test_table_word_fused : decodeTableWord 32 1 = some .blurFused := by rfl

/-! ## Datapath -/

/-- V-D1. -/
theorem test_avg5 : [0, 4, 5, 9, 24, 254, 255, 1274, 1275].map (fun k => (avg5 k).toNat) =
    [0, 0, 1, 1, 4, 50, 51, 254, 255] := by decide
/-- V-D2, the unreachable completion. -/
theorem test_trunc_completion : truncU8 (.finite false (fp .binary64 256)) = 255#8 ∧
    truncU8 (.finite true (fp .binary64 1)) = 0#8 ∧ truncU8 .nan = 0#8 := by decide +kernel
/-- R75. -/
theorem test_five_encodings : fpBits .binary64 (fpFive .binary64) = 0x4014000000000000 ∧
    fpBits .binary32 (fpFive .binary32) = 0x40A00000 := by decide +kernel
/-- V-F5. -/
theorem test_fused_binary64_deviates : fpBits .binary64 (fusedAcc .binary64 0 0 3 19 3) = 0x4013FFFFFFFFFFFF ∧
    fusedPx .binary64 0 0 3 19 3 = 0#8 ∧ fusedPx .binary32 0 0 3 19 3 = 1#8 := by decide +kernel
/-- V-F6. -/
theorem test_fused_binary32_deviates : fpBits .binary32 (fusedAcc .binary32 1 21 1 1 1) = 0x409FFFFE ∧
    fusedPx .binary64 1 21 1 1 1 = 1#8 ∧ fusedPx .binary32 1 21 1 1 1 = 0#8 := by decide +kernel
/-- V-F7. -/
theorem test_fused_both_deviate : fpBits .binary64 (fusedAcc .binary64 884 508 551 388 119) = 0x407E9FFFFFFFFFFF ∧
    fusedPx .binary64 884 508 551 388 119 = 97#8 ∧ fusedPx .binary32 884 508 551 388 119 = 97#8 := by decide +kernel
/-- V-F8, last row: division by five, not multiplication by a rounded 0.2 (G3). -/
theorem test_true_division : fusedPx .binary64 55 59 33 24 4 = 6#8 ∧ fusedPx .binary32 55 59 33 24 4 = 7#8 := by
  decide +kernel
/-- V-F9: the order of the additions matters. -/
theorem test_order_of_additions : fusedPx .binary64 0 0 3 3 19 = 1#8 ∧ fusedPx .binary32 1 1 1 1 21 = 1#8 := by
  decide +kernel
/-- V-D4. -/
theorem test_element_address : elementAddr 0x1000 8 5 7 = 0x102F ∧ elementAddr 0x2000 10 5 5 = 0x2037 := by decide

/-! ## States -/

/-- Bytes laid out from an address on. -/
def place : Nat → List Nat → List Host.Cell → List Host.Cell
  | _, [], mem => mem
  | a, v :: vs, mem => setByte (place (a + 1) vs mem) a (BitVec.ofNat 8 v)

/-- Image B of V-S3. -/
def imageB : List Nat :=
  [4, 4, 4, 4, 3, 9, 4, 4, 4, 4, 3, 9, 4, 4, 4, 4, 3, 9, 4, 4, 4, 4, 3, 9, 4, 4, 4, 4, 3, 9, 0, 0, 0, 0, 0, 255]

/-- `IDLE`, image B at `0x1000`, operands set, a marker byte in the output buffer outside the valid region. -/
def ready : State :=
  { State.reset with
    n := 6#32, m := 6#32, g := 0x2000#32, inp := 0x1000#32
    mem := place 0x1000 imageB (place 0x2002 [0xEE] [])
    params := { scratchCap := 36, fusedFp := .binary64 } }

/-- The same, with a command running. -/
def running (i : Instr) : State := { ready with cmd := encode i, seq := .busy }

/-- The same, with an event to come. -/
def facing (e : Event) (s : State) : State := { s with events := [e] }

/-- The bytes at some addresses after a step. -/
def bytesAfter (o : Host.Outcome State Fault Refusal) (addrs : List Nat) : List Nat :=
  match o with
  | .next t => addrs.map fun a => (readByte t.mem a).toNat
  | .fault _ => []
  | .refused _ => []

/-- `STATE`, `ERRCODE` and `CMD` after a step. -/
def controlAfter (o : Host.Outcome State Fault Refusal) : Option (SeqState × ErrCode × Word) :=
  match o with
  | .next t => some (t.seq, t.err, t.cmd)
  | .fault _ => none
  | .refused _ => none

/-- `blur_fused` has completed; no read of `STATUS` has returned `DONE` yet. -/
def unread : State := { ready with cmd := 1#32, seq := .done, unseen := [ready.operands] }

/-! ## Commands: V-S3 and V-C1, image B -/

theorem test_fused_image_b : bytesAfter (exec .blurFused (running .blurFused))
    [0x2000, 0x2001, 0x2002, 0x2006, 0x2007, 0x1023] = [3, 4, 0xEE, 3, 14, 255] := by decide +kernel
theorem test_fused_start : controlAfter (step (facing (wr .cmd 1#32) ready)) =
    some (.busy, .none, 1#32) := by decide +kernel
theorem test_staged_image_b : bytesAfter (exec .blurStaged (running .blurStaged))
    [0x2000, 0x2001, 0x2002, 0x2006, 0x2007, 0x1023] = [3, 4, 0xEE, 2, 13, 255] := by decide +kernel
/-- V-S3: the scratch after the producer. -/
theorem test_staged_scratch : (match producer (acquire (running .blurStaged)) with
    | .ok t => [0, 1, 2, 24, 25, 30, 31].map (lookupCell t.scr)
    | .error _ => []) = [some 3#8, some 4#8, none, some 3#8, some 4#8, some 0#8, some 51#8] := by decide +kernel
theorem test_store_at_image_b : bytesAfter (exec .computeAtStoreAt (running .computeAtStoreAt))
    [0x2000, 0x2001, 0x2006, 0x2007] = [3, 4, 2, 13] := by decide +kernel
theorem test_store_root_image_b : bytesAfter (exec .computeAtStoreRoot (running .computeAtStoreRoot))
    [0x2000, 0x2001, 0x2006, 0x2007] = [3, 4, 2, 13] := by decide +kernel
/-- V-C1: both aliases need the whole scratch buffer. -/
theorem test_aliases_need_scratch :
    controlAfter (exec .computeAtStoreAt { ready with params := { scratchCap := 35, fusedFp := .binary64 } }) =
      some (.fault, .oom, 3#32) ∧
    controlAfter (exec .computeAtStoreRoot { ready with params := { scratchCap := 35, fusedFp := .binary64 } }) =
      some (.fault, .oom, 4#32) := by decide +kernel

/-! ## Errors and priority: V-E1, rows 1 to 29 -/

/-- The rows of V-E1: the command word, `N`, `M`, `G`, `INP`, `SCRATCH_CAP`, and the code. -/
def errorRows : List (Word × Nat × Nat × Nat × Nat × Nat × Nat) :=
  [(0#32, 6, 6, 0, 0, 99, 1), (5#32, 6, 6, 0x2000, 0x1000, 99, 1), (0x101#32, 6, 6, 0x2000, 0x1000, 99, 1),
   (0x80000002#32, 6, 6, 0x2000, 0x1000, 99, 1), (0xFFFFFFFF#32, 4, 4, 0, 0, 99, 1), (1#32, 0, 0, 0, 0, 99, 2),
   (1#32, 4, 10, 0x2000, 0x1000, 99, 2), (2#32, 10, 4, 0x2000, 0x1000, 99, 2), (1#32, 5, 6, 0x2000, 0x1000, 99, 2),
   (2#32, 6, 5, 0x2000, 0x1000, 99, 2), (1#32, 5, 6, 0x2000, 0xFFFFFFFF, 99, 2)] ++
  [(1#32, 6, 6, 0x2000, 0xFFFFFFDC, 99, 0), (1#32, 6, 6, 0x2000, 0xFFFFFFDD, 99, 3),
   (1#32, 6, 6, 0xFFFFFFDD, 0x1000, 99, 3), (1#32, 0xFFFFFFFF, 0xFFFFFFFF, 0, 0, 99, 3),
   (1#32, 0x10000, 0x10000, 0, 0, 99, 4), (1#32, 0x10000, 0x10000, 1, 0, 99, 3), (1#32, 6, 6, 0x1000, 0x1000, 99, 4),
   (2#32, 6, 6, 0x1000, 0x1000, 0, 4), (1#32, 6, 6, 0x1023, 0x1000, 99, 4), (1#32, 6, 6, 0x1024, 0x1000, 99, 0)] ++
  [(1#32, 6, 6, 0x0FDD, 0x1000, 99, 4), (1#32, 6, 6, 0x0FDC, 0x1000, 99, 0), (2#32, 6, 6, 0x2000, 0x1000, 36, 0),
   (2#32, 6, 6, 0x2000, 0x1000, 35, 5), (2#32, 6, 7, 0x2000, 0x1000, 36, 5), (3#32, 6, 7, 0x2000, 0x1000, 36, 5),
   (4#32, 6, 7, 0x2000, 0x1000, 36, 5), (1#32, 6, 7, 0x2000, 0x1000, 0, 0)]

theorem test_first_error_rows : errorRows.all (fun (w, n, m, g, inp, cap, code) =>
    (firstError cap w n m g inp).code.toNat == code) = true := by decide +kernel

/-! ## The sequencer and the port: V-E2, V-E3 -/

theorem test_busy_drops_operand_write : (match step (facing (wr .n 99#32) (running .blurFused)) with
    | .next t => some t.n
    | .fault _ => none
    | .refused _ => none) = some 6#32 := by decide +kernel
theorem test_busy_reads_status_one : (match step (facing (rd .status) (running .blurFused)) with
    | .next t => t.out
    | .fault _ => []
    | .refused _ => []) = [.reg .status 1#32] := by decide +kernel
theorem test_fault_drops_cmd_write : controlAfter (step (facing (wr .cmd 1#32)
    { ready with seq := .fault, err := .precond, cmd := 2#32 })) = some (.fault, .precond, 2#32) := by decide +kernel
theorem test_illegal_word_faults : controlAfter (step (facing (wr .cmd 0x101#32) ready)) =
    some (.fault, .illegalCmd, 0x101#32) := by decide +kernel
theorem test_reset_leaves_fault : controlAfter (step (facing .reset { ready with seq := .fault, err := .oom })) =
    some (.idle, .none, 0#32) := by decide +kernel
theorem test_first_command_after_reset : controlAfter (step (State.reset.withFetchWord 32 4)) =
    some (.fault, .precond, 4#32) := by decide +kernel

/-! ## Hands off until `DONE` is read (R153, R39) -/

/-- A load from the output footprint before the read of `STATUS` returns any value; after it, the byte. -/
theorem test_load_before_done_is_read : (match step (facing (.memRead 0x2002#32) unread) with
    | .next t => t.out
    | .fault _ => []
    | .refused _ => []) = [.byte 0x2002#32 (Config.freeByte 0)] := by rfl
theorem test_load_after_done_is_read :
    (match runSteps 2 { unread with events := [rd .status, .memRead 0x2002#32] } with
    | .next t => (t.out, t.unseen)
    | .fault _ => ([], [])
    | .refused _ => ([], [])) = ([.reg .status 2#32, .byte 0x2002#32 0xEE#8], []) := by decide +kernel
/-- A load from the input footprint is allowed at any time (R153). -/
theorem test_input_may_be_loaded : (match step (facing (.memRead 0x1023#32) unread) with
    | .next t => (t.out, t.drawn)
    | .fault _ => ([], 0)
    | .refused _ => ([], 0)) = ([.byte 0x1023#32 255#8], 0) := by decide +kernel

/-- Three commands completed unseen: image B at `0x1000`; a second on its own buffers; a third whose input is the first's
output. A load from the first's output makes the first's and the third's results unspecified, and not the second's. -/
def unreadThree : State := { unread with
  unseen := [ready.operands, { ready.operands with inp := 0x3000#32, g := 0x2024#32 },
    { ready.operands with inp := 0x2000#32, g := 0x4000#32 }] }

theorem test_violation_reaches_touched_and_dependent_only :
    [0x2000, 0x2007, 0x2002, 0x2024, 0x202B, 0x4000, 0x4007, 0x4002].map
      (spoiled (loadTouches 0x2000) unreadThree) =
    [true, true, false, false, false, true, true, false] := by decide +kernel

/-! ## Witnesses: what the hypotheses of each statement admit -/

/-- Operands are accepted where the checks of START pass. -/
theorem ready_accepted : OperandsAccepted ready := (operandsAccepted_iff _).2 (by decide +kernel)

/-- Acceptance depends on the four operands only. -/
theorem accepted_congr {s t : State} (h : OperandsAccepted s) (hn : t.n = s.n) (hm : t.m = s.m) (hg : t.g = s.g)
    (hi : t.inp = s.inp) : OperandsAccepted t := by
  rw [operandsAccepted_iff] at *
  simpa only [State.rows, State.cols, State.outBase, State.inBase, hn, hm, hg, hi] using h

theorem running_accepted (i : Instr) : OperandsAccepted (running i) := accepted_congr ready_accepted rfl rfl rfl rfl

theorem ready_scratch : ready.rows * ready.cols ≤ ready.params.scratchCap := by decide +kernel

/-- A second engine's operands: input at `0x3000`, output right after the first engine's. -/
def second : State := { ready with inp := 0x3000#32, g := 0x2024#32 }

theorem second_accepted : OperandsAccepted second := (operandsAccepted_iff _).2 (by decide +kernel)

/-- At the boundary: adjacent buffers, and an input that ends at `2^32` (V-E1 rows 21, 12). -/
theorem boundary_accepted : OperandsAccepted { ready with g := 0x1024#32 } ∧
    OperandsAccepted { ready with inp := 0xFFFFFFDC#32 } :=
  ⟨(operandsAccepted_iff _).2 (by decide +kernel), (operandsAccepted_iff _).2 (by decide +kernel)⟩

theorem witness_RegisterReadReturnsTheRegister :
    (facing (rd .err) ready).events = .port { we := false, idx := 7#3, wdata := 0#32 } :: [] := rfl
theorem witness_StatusReadsStateAndDropsWrites : (facing (rd .status) ready).events = rd .status :: [] ∧
    (facing (wr .status 2#32) ready).events = wr .status 2#32 :: [] := ⟨rfl, rfl⟩
theorem witness_ErrReadsErrorCodeAndDropsWrites : (facing (rd .err) ready).events = rd .err :: [] ∧
    (facing (wr .err 5#32) ready).events = wr .err 5#32 :: [] := ⟨rfl, rfl⟩
theorem witness_RegisterWriteByState :
    (∀ r v, (facing (wr r v) ready).events = .port { we := true, idx := r.idx, wdata := v } :: [] ∧
      openState (facing (wr r v) ready)) ∧ (facing (wr .n 9#32) (running .blurFused)).seq = .busy :=
  ⟨fun _ _ => ⟨rfl, .inl rfl⟩, rfl⟩
theorem witness_StepRunsTheDecodedCommand : openState (facing (wr .cmd 1#32) ready) ∧
    decode 1#32 = .ok .blurFused ∧ (running .blurFused).seq = .busy ∧ (running .blurFused).events = [] ∧
    decodeOp (opField (running .blurFused).cmd) = some .blurFused ∧
    (facing .engine (running .blurFused)).events = .engine :: [] ∧
    (facing (.poll 0) (running .blurFused)).events = .poll 0 :: [] := ⟨.inl rfl, rfl, rfl, rfl, rfl, rfl, rfl⟩
theorem witness_CmdWriteIsStart : (openState ready ∧ ready.firstError 2#32 = .none) ∧
    (openState ready ∧ ready.firstError 0#32 ≠ .none) ∧ ¬ openState (running .blurFused) :=
  ⟨⟨.inl rfl, by decide +kernel⟩, ⟨.inl rfl, by decide +kernel⟩, by rintro (h | h) <;> exact absurd h (by decide)⟩
theorem witness_FirstErrorIsTheLowestCode : firstError 0 0#32 0 0 0 0 ≠ .none := by decide
theorem witness_IllegalWordFaults : openState (facing (wr .cmd 5#32) ready) ∧
    (0x101#32).extractLsb' 8 24 ≠ 0#24 ∧ (0#32).extractLsb' 0 8 = 0#8 ∧ 5#8 ≤ (5#32).extractLsb' 0 8 :=
  ⟨.inl rfl, by decide, by decide, by decide⟩
theorem witness_AcceptedCommandEntersBusy (i : Instr) : openState ready ∧ OperandsAccepted ready ∧
    scratchAccepted i ready := ⟨.inl rfl, ready_accepted, fun _ => ready_scratch⟩
theorem witness_PrecondViolationFaults : openState { ready with n := 5#32 } ∧ (5#32).toNat ≤ 5 ∧
    openState { ready with m := 5#32 } := ⟨.inl rfl, by decide, .inl rfl⟩
theorem witness_RangeViolationFaults : openState ready ∧ 5 < ready.n.toNat ∧ 5 < ready.m.toNat ∧
    (0xFFFFFFDD#32).toNat + ready.n.toNat * ready.m.toNat > 2 ^ 32 := ⟨.inl rfl, by decide +kernel⟩
theorem witness_SharedByteFaults : openState { ready with g := 0x1023#32 } ∧
    inFootprint { ready with g := 0x1023#32 } 0x1023 = true ∧
    outFootprint { ready with g := 0x1023#32 } 0x1023 = true ∧ 5 < ready.n.toNat ∧ 5 < ready.m.toNat ∧
    (0x1000#32).toNat + ready.n.toNat * ready.m.toNat ≤ 2 ^ 32 ∧
    (0x1023#32).toNat + ready.n.toNat * ready.m.toNat ≤ 2 ^ 32 := ⟨.inl rfl, by decide +kernel⟩
theorem witness_ScratchTooSmallFaults :
    let s : State := { ready with params := { scratchCap := 35, fusedFp := .binary64 } }
    openState s ∧ OperandsAccepted s ∧ s.n.toNat * s.m.toNat > s.params.scratchCap ∧ s.params.scratchCap < 36 ∧
      exec .blurFused { s with n := 5#32 } = .next (start 1#32 { s with n := 5#32 }) ∧
      (start 1#32 { s with n := 5#32 }).seq = .fault :=
  ⟨.inl rfl, accepted_congr ready_accepted rfl rfl rfl rfl, by decide +kernel, by decide +kernel, rfl, rfl⟩
theorem witness_FaultIsLeftByResetOnly :
    let s : State := { ready with seq := .fault, err := .illegalCmd }
    (facing (wr .n 6#32) s).seq = .fault ∧ (facing (rd .n) s).events = rd .n :: [] ∧
      (facing .reset s).events = .reset :: [] ∧ step s = .next s := ⟨rfl, rfl, rfl, rfl⟩
theorem witness_FusedCompletes : (running .blurFused).seq = .busy ∧ (running .blurFused).tainted = false ∧
    OperandsAccepted (running .blurFused) := ⟨rfl, rfl, running_accepted _⟩
theorem witness_StagedCompletes : (running .blurStaged).seq = .busy ∧ (running .blurStaged).tainted = false ∧
    OperandsAccepted (running .blurStaged) ∧
    (running .blurStaged).rows * (running .blurStaged).cols ≤ (running .blurStaged).params.scratchCap :=
  ⟨rfl, rfl, running_accepted _, ready_scratch⟩
theorem witness_ComputeAtStoreAtIsStaged :
    let s := running .computeAtStoreAt
    s.seq = .busy ∧ s.tainted = false ∧ OperandsAccepted s ∧ s.rows * s.cols ≤ s.params.scratchCap ∧ openState ready :=
  ⟨rfl, rfl, running_accepted _, ready_scratch, .inl rfl⟩
theorem witness_ComputeAtStoreRootIsStaged :
    let s := running .computeAtStoreRoot
    s.seq = .busy ∧ s.tainted = false ∧ OperandsAccepted s ∧ s.rows * s.cols ≤ s.params.scratchCap ∧ openState ready :=
  ⟨rfl, rfl, running_accepted _, ready_scratch, .inl rfl⟩
theorem witness_ProducerFillsTheScratchRows : ready.rows * ready.cols ≤ ready.params.scratchCap ∧
    ready.inBase + ready.rows * ready.cols ≤ memSize := ⟨ready_scratch, ready_accepted.inRange⟩
theorem witness_CommandFrame : exec .blurFused ready = .next (start 1#32 ready) ∧
    exec .blurStaged { ready with seq := .fault } = .next { ready with seq := .fault } := ⟨rfl, rfl⟩
theorem witness_ContextIsIgnored : exec .blurStaged ready = .next (start 2#32 ready) := rfl
theorem witness_OutputDependsOnOperandsAndInputOnly (i : Instr) :
    let s := running i
    let s' : State := { running i with ctx := 7#32, mem := setByte (running i).mem 0 9#8 }
    (s.seq = .busy ∧ s'.seq = .busy ∧ s.tainted = false ∧ s'.tainted = false) ∧
      (OperandsAccepted s ∧ scratchAccepted i s ∧ scratchAccepted i s') ∧
      (s'.n = s.n ∧ s'.m = s.m ∧ s'.g = s.g ∧ s'.inp = s.inp ∧ s'.params.fusedFp = s.params.fusedFp) ∧
      ∀ a, inFootprint s a = true → readByte s'.mem a = readByte s.mem a := by
  refine ⟨⟨rfl, rfl, rfl, rfl⟩, ⟨running_accepted i, fun _ => ready_scratch, fun _ => ready_scratch⟩,
    ⟨rfl, rfl, rfl, rfl, rfl⟩, fun a ha => ?_⟩
  change readByte (setByte _ 0 9#8) a = _
  rw [readByte_setByte, if_neg]
  rintro rfl
  exact absurd (show inFootprint ready 0 = true from ha) (by decide +kernel)
theorem witness_DisjointEnginesDoNotInterfere (i j : Instr) :
    let a := running i
    let b : State := { running j with inp := 0x3000#32, g := 0x2024#32 }
    (a.seq = .busy ∧ b.seq = .busy ∧ a.tainted = false ∧ b.tainted = false) ∧
      (OperandsAccepted a ∧ OperandsAccepted b ∧ scratchAccepted i a ∧ scratchAccepted j b ∧ b.mem = a.mem) ∧
      (∀ x, outFootprint a x = true → inFootprint b x = false ∧ outFootprint b x = false) ∧
      ∀ x, outFootprint b x = true → inFootprint a x = false ∧ outFootprint a x = false := by
  refine ⟨⟨rfl, rfl, rfl, rfl⟩, ⟨running_accepted i, accepted_congr second_accepted rfl rfl rfl rfl, fun _ => ready_scratch,
    fun _ => ready_scratch, rfl⟩, fun x hx => ?_, fun x hx => ?_⟩
  all_goals
    have hx := decide_eq_true_iff.1 hx
    simp only [State.rows, State.cols, State.outBase, running, ready, BitVec.reduceToNat] at hx
    constructor <;> refine decide_eq_false_iff_not.2 ?_ <;>
      simp only [State.rows, State.cols, State.inBase, State.outBase, running, ready, BitVec.reduceToNat] <;> omega
theorem witness_TaintedCompletionLeavesFreeBytes (i : Instr) :
    let s : State := { running i with tainted := true }
    s.seq = .busy ∧ s.tainted = true ∧ OperandsAccepted s :=
  ⟨rfl, rfl, accepted_congr ready_accepted rfl rfl rfl rfl⟩
theorem witness_ResetSetsTheRegisters : (facing .reset ready).events = .reset :: [] ∧
    (facing .reset ready).seq ≠ .busy := ⟨rfl, fun h => SeqState.noConfusion h⟩
theorem witness_ResetInBusyAbandonsTheCommand :
    let s := facing .reset (running .blurFused)
    s.events = .reset :: [] ∧ s.seq = .busy ∧ OperandsAccepted s :=
  ⟨rfl, rfl, accepted_congr ready_accepted rfl rfl rfl rfl⟩
/-- The bytes beside the two footprints, and for a load the last byte of the input. -/
theorem witness_HostAccessOutsideBusy : unread.seq ≠ .busy ∧
    (∀ a, a = 0x0FFF ∨ a = 0x1024 ∨ a = 0x1FFF ∨ a = 0x2024 → ∀ o ∈ unread.unseen,
      inFootprint (useOperands o unread) a = false ∧ outFootprint (useOperands o unread) a = false) ∧
    (∀ o ∈ unread.unseen, outFootprint (useOperands o unread) 0x1023 = false) ∧
    (facing (.memWrite 0x1024#32 1#8) unread).events = .memWrite 0x1024#32 1#8 :: [] ∧
    (facing (.memRead 0x1023#32) unread).events = .memRead 0x1023#32 :: [] := by
  refine ⟨fun h => SeqState.noConfusion h, ?_, by decide +kernel, rfl, rfl⟩
  rintro a (rfl | rfl | rfl | rfl) <;> decide +kernel
theorem unread_accepted : ∀ o ∈ unread.unseen, OperandsAccepted (useOperands o unread) := by
  intro o ho
  obtain rfl := List.mem_singleton.1 ho
  exact accepted_congr ready_accepted rfl rfl rfl rfl
/-- The first and the last byte of each footprint. -/
theorem witness_HostStoreBeforeDoneIsRead : (facing (.memWrite 0x1000#32 1#8) unread).events = [.memWrite 0x1000#32 1#8] ∧
    (∀ o ∈ unread.unseen, OperandsAccepted (useOperands o unread)) ∧
    ∀ a, a = 0x1000 ∨ a = 0x1023 ∨ a = 0x2000 ∨ a = 0x2023 → ∃ o ∈ unread.unseen,
      inFootprint (useOperands o unread) a = true ∨ outFootprint (useOperands o unread) a = true := by
  refine ⟨rfl, unread_accepted, fun a ha => ⟨_, List.mem_singleton.2 rfl, ?_⟩⟩
  rcases ha with rfl | rfl | rfl | rfl <;> decide +kernel
theorem witness_HostLoadBeforeDoneIsRead : (facing (.memRead 0x2000#32) unread).events = [.memRead 0x2000#32] ∧
    (∀ o ∈ unread.unseen, OperandsAccepted (useOperands o unread)) ∧
    (∃ o ∈ unread.unseen, outFootprint (useOperands o unread) 0x2000 = true) ∧
    ∃ o ∈ unread.unseen, outFootprint (useOperands o unread) 0x2023 = true :=
  ⟨rfl, unread_accepted, ⟨_, List.mem_singleton.2 rfl, by decide +kernel⟩, _, List.mem_singleton.2 rfl, by decide +kernel⟩
/-- The second of the three commands, a store and a load at the first's output, and a load from its own input. -/
theorem witness_UntouchedCommandKeepsItsResults :
    let o : Operands := { ready.operands with inp := 0x3000#32, g := 0x2024#32 }
    let post : List Operands := [{ ready.operands with inp := 0x2000#32, g := 0x4000#32 }]
    unreadThree.unseen = [ready.operands] ++ o :: post ∧
      inFootprint (useOperands o unreadThree) 0x2023 = false ∧ outFootprint (useOperands o unreadThree) 0x2023 = false ∧
      outFootprint (useOperands o unreadThree) 0x3000 = false ∧
      (∀ p ∈ [ready.operands], ∀ b, inFootprint (useOperands o unreadThree) b = true →
        outValid (useOperands p unreadThree) b = false) ∧
      outValid (useOperands o unreadThree) 0x2024 = true ∧
      (∀ p ∈ post, outValid (useOperands p unreadThree) 0x2024 = false) ∧
      controlAfter (step (facing (.memRead 0x3000#32) unreadThree)) = some (.done, .none, 1#32) ∧
      controlAfter (step (facing (.memRead 0x2023#32) unreadThree)) = some (.done, .none, 1#32) ∧
      controlAfter (step (facing (.memWrite 0x2023#32 1#8) unreadThree)) = some (.done, .none, 1#32) := by
  refine ⟨rfl, by decide +kernel, by decide +kernel, by decide +kernel, ?_, by decide +kernel, by decide +kernel, by decide +kernel⟩
  rintro p hp b hb
  obtain rfl := List.mem_singleton.1 hp
  have hb := (inFootprint_iff _ _).1 hb
  by_contra hc
  have hc := (outFootprint_iff _ _).1 (outFootprint_of_outValid (Bool.not_eq_false _ ▸ hc))
  simp only [useOperands_inBase, useOperands_rows, useOperands_cols, useOperands_outBase, State.operands, ready,
    BitVec.reduceToNat] at hb hc
  omega
/-- The last position of the valid region. -/
theorem witness_LoadAfterDoneReturnsTheResult (i : Instr) :
    let s := { running i with events := [.engine, rd .status, .memRead 0x2007#32] }
    s.seq = .busy ∧ s.tainted = false ∧ s.cmd = encode i ∧ OperandsAccepted s ∧ scratchAccepted i s ∧ 1 < s.rows - 4 ∧
      1 < s.cols - 4 ∧ (0x2007#32).toNat = elementAddr s.outBase s.cols 1 1 :=
  ⟨rfl, rfl, rfl, accepted_congr ready_accepted rfl rfl rfl rfl, fun _ => ready_scratch,
    show 1 < ready.rows - 4 ∧ 1 < ready.cols - 4 ∧ (0x2007#32).toNat = elementAddr ready.outBase ready.cols 1 1 by
      decide +kernel⟩
/-- The first and the last byte of the output footprint, and the bytes beside it. -/
theorem witness_HostAccessInBusy :
    let s := running .blurFused
    s.seq = .busy ∧ s.unseen = [] ∧ outFootprint s 0x2000 = true ∧ outFootprint s 0x2023 = true ∧ outFootprint s 0x1FFF = false ∧
      outFootprint s 0x2024 = false ∧ inFootprint s 0x1000 = true := ⟨rfl, rfl, by decide +kernel⟩
theorem witness_MemoryChangesOnlyByHostOrInOutValid :
    let s := facing (.memWrite 0x50#32 1#8) ready
    ∃ t, step s = .next t ∧ readByte t.mem 0x50 ≠ readByte s.mem 0x50 := ⟨_, rfl, by decide +kernel⟩
theorem witness_SequencerTransitions :
    let s := facing (wr .cmd 1#32) ready
    ∃ t, step s = .next t ∧ t.seq ≠ s.seq := ⟨_, rfl, by decide +kernel⟩
theorem witness_EngineHasNoStepOutsideBusy : (facing .engine ready).seq ≠ .busy ∧ ready.events = [] ∧
    ready.seq ≠ .busy := ⟨fun h => SeqState.noConfusion h, rfl, fun h => SeqState.noConfusion h⟩
theorem witness_PollReadsStatusUntilDoneOrFault : (facing (.poll 1) (running .blurFused)).events = .poll 1 :: [] ∧
    (running .blurFused).seq = .busy ∧ (facing (.poll 0) ready).events = .poll 0 :: [] ∧ ready.seq = .idle :=
  ⟨rfl, rfl, rfl, rfl⟩
/-- A state of the invariant with a command running, one step after another of the invariant. -/
theorem running_inv (i : Instr) : Inv (running i) where
  mem := show Memory.wf ready.mem by decide +kernel
  scr := rfl
  err := ⟨fun h => absurd rfl h, fun h => SeqState.noConfusion h⟩
  idle := fun h => SeqState.noConfusion h
  busy := fun _ => show ready.firstError (encode i) = .none by cases i <;> decide +kernel
  done := fun h => SeqState.noConfusion h
  fault := fun h => SeqState.noConfusion h
  tainted := fun h => Bool.noConfusion h
  unseen := fun _ h => absurd h List.not_mem_nil
  idleUnseen := fun h => SeqState.noConfusion h
theorem witness_EveryStepKeepsTheInvariant : Inv (running .blurFused) ∧
    ∃ t, step { running .blurFused with events := [rd .n] } = .next t := ⟨running_inv _, _, rfl⟩
theorem witness_NoStepStops (i : Instr) : Inv (running i) := running_inv i
theorem witness_IntegersAreExact : (0 : Nat) ≤ 1275 ∧ (1275 : Nat) ≤ 1275 := by decide
/-- Both sides of every bound of R79: `255`, `256`, zero. -/
theorem witness_TruncationDiscardsTheFraction : fpVal { sig := 0, exp := 0 } = 0 ∧ fpVal { sig := 255, exp := 0 } < 256 ∧
    256 ≤ fpVal { sig := 256, exp := 0 } ∧ fpVal { sig := 256, exp := 0 } ≠ 0 := by norm_num [fpVal]
/-- Row sums at both ends of their range, one total divisible by 25 and one not: the hypotheses of
`FusedPathStaysInRange`, `TruncatedMeanIsIntegerDivision`, `FusedSampleIsMeanOrOneLess`,
`FusedSampleIsExactOnMultiplesOfFive`, `FusedSampleIsWithinOneOfTheMean` and `StagedAgainstFused`. -/
theorem witness_row_sums_in_range : (0 : Nat) ≤ 1275 ∧ (1275 : Nat) ≤ 1275 ∧ (0 + 0 + 3 + 19 + 3) % 25 = 0 ∧
    (1 + 1 + 1 + 1 + 1) % 25 ≠ 0 ∧ (255 : Nat) ≤ 255 := by decide
theorem witness_CallReturnsWithTheResult (i : Instr) (spins : Nat) :
    let s : State := { ready with events := callForm i 6#32 6#32 0x2000#32 0x1000#32 spins ++ [] }
    let s' : State := { s with n := 6#32, m := 6#32, g := 0x2000#32, inp := 0x1000#32 }
    openState s ∧ OperandsAccepted s' ∧ scratchAccepted i s' :=
  ⟨.inl rfl, accepted_congr ready_accepted rfl rfl rfl rfl, fun _ => ready_scratch⟩
theorem witness_FailedCallEndsInFault (spins : Nat) :
    let s : State := { ready with events := callForm .blurStaged 4#32 6#32 0x2000#32 0x1000#32 spins ++ [] }
    openState s ∧ ErrCode.precond ≠ .none ∧
      State.firstError { s with n := 4#32, m := 6#32, g := 0x2000#32, inp := 0x1000#32 } (encode .blurStaged) =
        .precond := ⟨.inl rfl, by decide, rfl⟩

end Sys2Proof.Tests
end

section
/-! PROOFS. Laws of the register port, of the engine's work on memory and of the closed forms of the commands, and the
statements of the state family. -/

namespace Sys2Proof.Machine

/-! ## One event -/

theorem step_cons {s : State} {e : Event} {rest : List Event} (he : s.events = e :: rest) :
    step s = eventStep e rest s := by simp [step, he]

/-! ## The register port: reads and writes by index -/

theorem idx_cases (k : BitVec 3) : k = 0#3 ∨ k = 1#3 ∨ k = 2#3 ∨ k = 3#3 ∨ k = 4#3 ∨ k = 5#3 ∨ k = 6#3 ∨ k = 7#3 := by
  revert k; decide

theorem ofIdx_eq_status {k : BitVec 3} : Reg.ofIdx k = .status ↔ k = 6#3 := by revert k; decide

@[simp] theorem readReg_setEvents (r : Reg) (es : List Event) (s : State) :
    readReg r (setEvents es s) = readReg r s := by cases r <;> rfl

/-- A read transaction as a whole-state equation (R16). -/
theorem step_read {s : State} {t : Transaction} {rest : List Event} (he : s.events = .port t :: rest)
    (hr : t.we = false) :
    step s = .next { s with
      events := rest, out := s.out ++ [.reg (Reg.ofIdx t.idx) (readReg (Reg.ofIdx t.idx) s)],
      unseen := if Reg.ofIdx t.idx = .status ∧ s.seq = .done then [] else s.unseen } := by
  simp only [step_cons he, eventStep, portStep, hr, regRead_eq, readReg_setEvents]
  rfl

theorem step_write {s : State} {t : Transaction} {rest : List Event} (he : s.events = .port t :: rest)
    (hw : t.we = true) : step s = regWrite (Reg.ofIdx t.idx) t.wdata (setEvents rest s) := by
  simp [step_cons he, eventStep, portStep, hw]

/-- A register write in `IDLE` or `DONE` (R18). -/
theorem regWrite_of_open {s : State} (ho : openState s) (r : Reg) (v : Word) :
    regWrite r v s = .next (if r = .cmd then start v s else writeOperand r v s) := by
  rcases regWrite_cases r v s with ⟨hn, _⟩ | ⟨_, hr, h⟩ | ⟨_, hr, h⟩
  · exact absurd ho hn
  · rw [h, startWord_eq ho, if_pos hr]
  · rw [h, if_neg hr]

/-- A register write in `BUSY` and `FAULT` is dropped (R18). -/
theorem regWrite_of_not_open {s : State} (ho : ¬ openState s) (r : Reg) (v : Word) : regWrite r v s = .next s := by
  rcases regWrite_cases r v s with ⟨_, h⟩ | ⟨h, _⟩ | ⟨h, _⟩
  · exact h
  · exact absurd h ho
  · exact absurd h ho

theorem not_openState_iff {s : State} : ¬ openState s ↔ s.seq = .busy ∨ s.seq = .fault := by
  unfold openState; cases s.seq <;> simp

/-- A write of a register that START and the operand writes leave alone is dropped in every state (R14, R15). -/
theorem regWrite_readOnly {r : Reg} (hr : r = .status ∨ r = .err) (v : Word) (s : State) :
    regWrite r v s = .next s := by
  by_cases ho : openState s
  · rw [regWrite_of_open ho]
    rcases hr with rfl | rfl <;> rfl
  · exact regWrite_of_not_open ho r v

/-- Settles O3: `step_read`, with the register of each index (R51). -/
theorem registerReadReturnsTheRegister : Obligations.RegisterReadReturnsTheRegister := by
  unfold Obligations.RegisterReadReturnsTheRegister
  intro s t rest he hr
  refine ⟨readReg (Reg.ofIdx t.idx) s, by simp only [step_read he hr, ofIdx_eq_status], ?_⟩
  rcases idx_cases t.idx with h | h | h | h | h | h | h | h <;> rw [h] <;> rfl

/-- The bits of a `STATUS` read (R14). -/
theorem statusWord_bits (s : State) :
    (statusWord s).extractLsb' 2 30 = 0#30 ∧ (statusWord s).extractLsb' 0 2 = s.seq.code := by
  unfold statusWord; cases s.seq <;> decide

theorem seqCode_inj {p q : SeqState} : p.code = q.code ↔ p = q := by cases p <;> cases q <;> decide

theorem errCode_inj {d e : ErrCode} : d.code.setWidth 32 = e.code.setWidth 32 ↔ d = e := by
  cases d <;> cases e <;> decide

/-- Settles O4: `STATUS` shows the two bits of `STATE`, which tell its values apart. -/
theorem statusReadsStateAndDropsWrites : Obligations.StatusReadsStateAndDropsWrites := by
  unfold Obligations.StatusReadsStateAndDropsWrites
  refine fun s rest => ⟨fun he => ?_, fun v he => ?_⟩
  · obtain ⟨hhigh, hlow⟩ := statusWord_bits s
    refine ⟨statusWord s, ?_, hhigh, ?_⟩
    · rw [hlow, step_read he rfl]
      simp only [show (2#2 : BitVec 2) = SeqState.done.code from rfl, seqCode_inj, ofIdx_idx, true_and]
      rfl
    · rw [hlow]
      exact ⟨seqCode_inj (q := .idle), seqCode_inj (q := .busy), seqCode_inj (q := .done), seqCode_inj (q := .fault)⟩
  · rw [step_write he rfl, regWrite_readOnly (by simp)]
    rfl

/-- Settles O5: `ERR` shows the code of the error taken, and the codes tell the errors apart (R120). -/
theorem errReadsErrorCodeAndDropsWrites : Obligations.ErrReadsErrorCodeAndDropsWrites := by
  unfold Obligations.ErrReadsErrorCodeAndDropsWrites
  refine fun s rest => ⟨fun he => ⟨errWord s, ?_, ?_⟩, fun v he => ?_⟩
  · rw [step_read he rfl]
    simp only [ofIdx_idx, reduceCtorEq, false_and, if_false]
    rfl
  · exact ⟨errCode_inj (e := .none), errCode_inj (e := .illegalCmd), errCode_inj (e := .precond),
      errCode_inj (e := .range), errCode_inj (e := .aliased), errCode_inj (e := .oom)⟩
  · rw [step_write he rfl, regWrite_readOnly (by simp)]
    rfl

/-- Settles O6: a write is dropped outside `IDLE` and `DONE`; there it is START or the write of one operand register. -/
theorem registerWriteByState : Obligations.RegisterWriteByState := by
  unfold Obligations.RegisterWriteByState
  intro s t rest he hw
  refine ⟨fun hs => ?_, fun ho => ?_⟩
  · rw [step_write he hw]
    exact regWrite_of_not_open (s := setEvents rest s) (not_openState_iff.2 hs) _ _
  · rw [step_write he hw, regWrite_of_open (s := setEvents rest s) ho]
    refine ⟨?_, ?_, ?_, ?_, ?_, ?_, ?_⟩ <;> intro hk
    case refine_7 => rcases hk with hk | hk <;> rw [hk] <;> rfl
    all_goals rw [hk]; rfl

/-! ## Reset -/

/-- Settles O36. -/
theorem invariantHoldsAtReset : Obligations.InvariantHoldsAtReset where
  mem := reset_mem_wf
  scr := rfl
  err := by simp [State.reset]
  idle _ := rfl
  busy h := by simp [State.reset] at h
  done h := by simp [State.reset] at h
  fault h := by simp [State.reset] at h
  tainted h := by simp [State.reset] at h
  unseen := by simp [State.reset]
  idleUnseen _ := rfl

/-- The word of a command is never illegal (R55, R121). -/
theorem not_illegal_encode (i : Instr) : ¬ illegal (encode i) := by cases i <;> decide

theorem firstError_eq_precond {s : State} {w : Word} (hw : ¬ illegal w) (hp : precondViolated s.rows s.cols) :
    s.firstError w = .precond := by
  rw [State.firstError, firstError, if_neg hw, if_pos hp]

/-- A command in `IDLE` or `DONE` is START of its word (R60). -/
theorem exec_of_open {s : State} (ho : openState s) (i : Instr) : exec i s = .next (start (encode i) s) := by
  rw [exec_eq]
  rcases ho with h | h <;> simp [commandStep, h]

/-- Settles O29: with `N = 0`, every command fails the check of R122. -/
theorem resetStateReadsZero : Obligations.ResetStateReadsZero := by
  unfold Obligations.ResetStateReadsZero
  refine ⟨fun r => by cases r <;> rfl, rfl, rfl, rfl, fun k => rfl, fun i => ?_⟩
  have herr : State.reset.firstError (encode i) = .precond :=
    firstError_eq_precond (not_illegal_encode i) (.inl (Nat.zero_le 5))
  rcases start_cases (encode i) State.reset with ⟨hn, _⟩ | ⟨_, hs⟩
  · simp [herr] at hn
  · exact ⟨_, exec_of_open (.inl rfl) i, by rw [hs], by rw [hs]; exact herr, by rw [hs]⟩

end Sys2Proof.Machine
end

section
/-! PROOFS. What the engine's work may do to memory, what a command leaves unchanged, what it may depend on. -/

namespace Sys2Proof.Machine

/-! ## The engine's work on memory -/

/-- `t` is a state the engine's work may lead to from `s`: control is as it was, memory keeps its canonical form, and no
byte outside `OutValid` has changed (R92, R110). -/
structure EngineWork (s t : State) : Prop where
  control : SameControl s t
  wf : Memory.wf s.mem → Memory.wf t.mem
  frame : ∀ a, outValid s a = false → readByte t.mem a = readByte s.mem a

theorem SameControl.rows {s t : State} (h : SameControl s t) : t.rows = s.rows := congrArg BitVec.toNat h.n
theorem SameControl.cols {s t : State} (h : SameControl s t) : t.cols = s.cols := congrArg BitVec.toNat h.m
theorem SameControl.outBase {s t : State} (h : SameControl s t) : t.outBase = s.outBase := congrArg BitVec.toNat h.g

theorem SameControl.operands {s t : State} (h : SameControl s t) : t.operands = s.operands := by
  simp only [State.operands, h.n, h.m, h.g, h.inp]

theorem SameControl.outValid {s t : State} (h : SameControl s t) (a : Nat) :
    Machine.outValid t a = Machine.outValid s a := by
  simp only [Machine.outValid, h.rows, h.cols, h.outBase]

theorem EngineWork.refl (s : State) : EngineWork s s := ⟨.refl s, id, fun _ _ => rfl⟩

theorem EngineWork.trans {s t u : State} (h1 : EngineWork s t) (h2 : EngineWork t u) : EngineWork s u where
  control := h1.control.trans h2.control
  wf := h2.wf ∘ h1.wf
  frame a ha := (h2.frame a (by rw [h1.control.outValid, ha])).trans (h1.frame a ha)

/-- Work that leaves memory alone. -/
theorem EngineWork.of_mem_eq {s t : State} (hc : SameControl s t) (hm : t.mem = s.mem) : EngineWork s t :=
  ⟨hc, hm ▸ id, fun _ _ => hm ▸ rfl⟩

/-- A store at a position of the valid region (R83). -/
theorem EngineWork.of_storeG {i j : Nat} {v : Byte} {s t : State} (hi : i < s.rows - 4) (hj : j < s.cols - 4)
    (h : storeG i j v s = .ok t) : EngineWork s t := by
  obtain ⟨haddr, rfl⟩ := storeG_eq_ok.1 h
  refine ⟨sameControl_setMem _ _, setByte_wf v haddr, fun a ha => ?_⟩
  have hne : elementAddr s.outBase s.cols i j ≠ a := by
    rintro rfl
    rw [(outValid_iff s _).2 ⟨i, j, hi, hj, rfl⟩] at ha
    exact absurd ha (by decide)
  rw [setMem_mem, readByte_setByte, if_neg hne]

/-- The loop over the valid region does work of the engine where each of its positions does. -/
theorem engineWork_forValid {body : Nat → Nat → State → Except Fault State}
    (hbody : ∀ i j u v, i < u.rows - 4 → j < u.cols - 4 → body i j u = .ok v → EngineWork u v) {s t : State}
    (h : forValid body s = .ok t) : EngineWork s t :=
  forRange_keeps (fun _ => EngineWork s) _ (.refl s)
    (fun i _ _ hi hu huv => forRange_keeps (fun _ => EngineWork s) _ hu
      (fun j u v hj hu huv =>
        hu.trans (hbody i j u v (by rwa [hu.control.rows]) (by rwa [hu.control.cols]) huv)) huv) h

/-! ## What each position of a loop does where it answers -/

theorem fusedPosition_store {i j : Nat} {s t : State} (h : fusedPosition i j s = .ok t) :
    ∃ v, storeG i j v s = .ok t := by
  simp only [fusedPosition, except_bind_eq_ok] at h
  obtain ⟨_, _, _, _, _, _, _, _, _, _, h⟩ := h
  exact ⟨_, h⟩

theorem consumerPosition_store {i j : Nat} {s t : State} (h : consumerPosition i j s = .ok t) :
    ∃ v, storeG i j v s = .ok t := by
  simp only [consumerPosition, except_bind_eq_ok] at h
  obtain ⟨_, _, h⟩ := h
  exact ⟨_, h⟩

theorem producerPosition_store {i j : Nat} {s t : State} (h : producerPosition i j s = .ok t) :
    ∃ v, storeF i j v s = .ok t := by
  simp only [producerPosition, except_bind_eq_ok] at h
  obtain ⟨_, _, h⟩ := h
  exact ⟨_, h⟩

/-- A loop over the valid region that stores one byte at every position it visits. -/
theorem engineWork_forValid_store {body : Nat → Nat → State → Except Fault State}
    (hbody : ∀ i j u v, body i j u = .ok v → ∃ b, storeG i j b u = .ok v) {s t : State}
    (h : forValid body s = .ok t) : EngineWork s t ∧ t.drawn = s.drawn := by
  refine ⟨engineWork_forValid (fun i j u v hi hj huv => ?_) h,
    forValid_keeps (fun u => u.drawn = s.drawn) rfl (fun i j u v hu huv => ?_) h⟩
  · obtain ⟨b, hb⟩ := hbody i j u v huv
    exact .of_storeG hi hj hb
  · obtain ⟨b, hb⟩ := hbody i j u v huv
    obtain ⟨_, rfl⟩ := storeG_eq_ok.1 hb
    exact hu

/-- The producer writes scratch memory only (R102). -/
theorem producer_keeps {s t : State} (h : producer s = .ok t) : t.mem = s.mem ∧ t.drawn = s.drawn := by
  refine forRange_keeps (fun _ u => u.mem = s.mem ∧ u.drawn = s.drawn) _ ⟨rfl, rfl⟩
    (fun i u v _ hu huv => forRange_keeps (fun _ u => u.mem = s.mem ∧ u.drawn = s.drawn) _ hu
      (fun j u v _ hu huv => ?_) huv) h
  obtain ⟨b, hb⟩ := producerPosition_store huv
  obtain ⟨_, rfl⟩ := storeF_eq_ok.1 hb
  exact hu

theorem engineWork_stagedEffect {s t : State} (h : stagedEffect s = .ok t) :
    EngineWork s t ∧ t.drawn = s.drawn := by
  simp only [stagedEffect, except_bind_eq_ok, except_map_eq_ok] at h
  obtain ⟨u, hu, v, hv, rfl⟩ := h
  have hacquire : EngineWork s (acquire s) := .of_mem_eq (sameControl_setScr _ _) rfl
  obtain ⟨hmem, hdrawn⟩ := producer_keeps hu
  have hproducer : EngineWork (acquire s) u := .of_mem_eq (sameControl_producer hu) hmem
  obtain ⟨hconsumer, hdrawn'⟩ := engineWork_forValid_store (fun _ _ _ _ => consumerPosition_store) hv
  have hrelease : EngineWork v (release v) := .of_mem_eq (sameControl_setScr _ _) rfl
  exact ⟨hacquire.trans (hproducer.trans (hconsumer.trans hrelease)), hdrawn'.trans hdrawn⟩

/-- The work of every command is work of the engine, and draws no free byte. -/
theorem engineWork_effectOf {i : Instr} {s t : State} (h : effectOf i s = .ok t) :
    EngineWork s t ∧ t.drawn = s.drawn := by
  cases i with
  | blurFused => exact engineWork_forValid_store (fun _ _ _ _ => fusedPosition_store) h
  | blurStaged => exact engineWork_stagedEffect h
  | computeAtStoreAt => exact engineWork_stagedEffect h
  | computeAtStoreRoot => exact engineWork_stagedEffect h

theorem engineWork_havocPosition {i j : Nat} {s t : State} (hi : i < s.rows - 4) (hj : j < s.cols - 4)
    (h : havocPosition i j s = .ok t) : EngineWork s t :=
  (EngineWork.of_mem_eq (sameControl_countDraw s) rfl).trans (.of_storeG (s := countDraw s) hi hj h)

/-- A command that leaves any values does so inside its `OutValid` (R151, U4, U7). -/
theorem engineWork_havocOutValid {s t : State} (h : havocOutValid s = .ok t) : EngineWork s t :=
  engineWork_forValid (fun _ _ _ _ hi hj => engineWork_havocPosition hi hj) h

theorem engineWork_havocPositionAt {addrs : Nat → Bool} {i j : Nat} {s t : State} (hi : i < s.rows - 4)
    (hj : j < s.cols - 4) (h : havocPositionAt addrs i j s = .ok t) : EngineWork s t := by
  unfold havocPositionAt at h
  split at h
  · exact engineWork_havocPosition hi hj h
  · obtain rfl : s = t := by simpa using h
    exact .refl s

/-- What a COMPLETE that answers has done before its end (R61). -/
theorem engineWork_complete {i : Instr} {s u : State}
    (h : (if s.tainted then havocOutValid s else effectOf i s) = .ok u) :
    EngineWork s u ∧ (u.drawn = s.drawn ∨ s.tainted = true) := by
  cases ht : s.tainted with
  | true =>
    rw [ht, if_pos rfl] at h
    exact ⟨engineWork_havocOutValid h, .inr rfl⟩
  | false =>
    rw [ht, if_neg Bool.false_ne_true] at h
    obtain ⟨hw, hd⟩ := engineWork_effectOf h
    exact ⟨hw, .inl hd⟩

/-! ## A violation of the hands-off rule keeps memory canonical -/

theorem havocCommands_wf {addrs : Nat → Bool} {os : List Operands} {s t : State}
    (h : havocCommands addrs os s = .ok t) (hs : Memory.wf s.mem) : Memory.wf t.mem := by
  induction os generalizing s with
  | nil => obtain rfl : s = t := by simpa [havocCommands] using h
           exact hs
  | cons o rest ih =>
    simp only [havocCommands, except_bind_eq_ok, havocCommand, except_map_eq_ok] at h
    obtain ⟨_, ⟨u, hu, rfl⟩, h⟩ := h
    have hwork : EngineWork (useOperands o s) u :=
      engineWork_forValid (fun _ _ _ _ hi hj => engineWork_havocPositionAt hi hj) hu
    exact ih h (hwork.wf hs)

/-- An access that answers has done the work on the completed commands, if it touches one, and may have left the mark. -/
theorem breakHandsOff_eq_ok {touches : State → Bool} {s t : State} (h : breakHandsOff touches s = .ok t) :
    ∃ u, (if touchesUnseen touches s then havocCommands (spoiled touches s) s.unseen s else .ok s) = .ok u ∧
      t.mem = u.mem ∧ t.seq = u.seq := by
  simp only [breakHandsOff, except_map_eq_ok] at h
  obtain ⟨u, hu, rfl⟩ := h
  exact ⟨u, hu, by split <;> rfl, by split <;> rfl⟩

theorem breakHandsOff_wf {touches : State → Bool} {s t : State} (h : breakHandsOff touches s = .ok t)
    (hs : Memory.wf s.mem) : Memory.wf t.mem := by
  obtain ⟨u, hu, hmem, _⟩ := breakHandsOff_eq_ok h
  rw [hmem]
  split at hu
  · exact havocCommands_wf hu hs
  · obtain rfl : s = u := by simpa using hu
    exact hs

theorem breakHandsOff_seq {touches : State → Bool} {s t : State} (h : breakHandsOff touches s = .ok t) :
    t.seq = s.seq := by
  obtain ⟨u, hu, _, hseq⟩ := breakHandsOff_eq_ok h
  rw [hseq]
  split at hu
  · exact (sameControl_havocCommands hu).seq
  · obtain rfl : s = u := by simpa using hu
    rfl

/-! ## The frame of a command -/

/-- Settles O22: START, COMPLETE and a dropped command each keep the frame (R11, R13, R15, R22). -/
theorem commandFrame : Obligations.CommandFrame := by
  unfold Obligations.CommandFrame
  intro i s t h
  rw [exec_eq] at h
  rcases commandStep_eq_next h with ⟨ho, rfl⟩ | ⟨hb, u, hu, rfl⟩ | ⟨hf, rfl⟩
  · have hnb : s.seq ≠ .busy := by rcases ho with ho | ho <;> simp [ho]
    rcases start_cases (encode i) s with ⟨_, he⟩ | ⟨_, he⟩ <;> simp [he, ho, hnb]
  · obtain ⟨⟨hc, _, hframe⟩, hdrawn⟩ := engineWork_complete hu
    have hcontrol := hc
    obtain ⟨hctx, hn, hm, hg, hinp, hcmd, _, herr, hparams, hevents, hout, _, hunseen⟩ := hcontrol
    refine ⟨hctx, hn, hm, hg, hinp, hparams, hevents, hout, .inl hcmd, .inl herr, ?_, ?_, fun hnb => absurd hb hnb,
      hframe⟩
    · exact hdrawn.imp_right fun ht => ⟨hb, ht⟩
    · simp [hb, hunseen, hc.operands]
  · simp [hf]

/-! ## `CTX` -/

/-- The state with another `CTX`. -/
def setCtx (c : Word) (s : State) : State := { s with ctx := c }

/-- Work on the state that takes no notice of `CTX` (R12). -/
def IgnoresCtx (work : State → Except Fault State) : Prop :=
  ∀ c s, work (setCtx c s) = (work s).map (setCtx c)

theorem except_bind_map_comm {ε α : Type} {f : α → α} {w : α → Except ε α} (hw : ∀ a, w (f a) = (w a).map f)
    (x : Except ε α) : (x.map f).bind w = (x.bind w).map f := by
  cases x with
  | error e => rfl
  | ok a => exact hw a

theorem IgnoresCtx.bind {v w : State → Except Fault State} (hv : IgnoresCtx v) (hw : IgnoresCtx w) :
    IgnoresCtx fun s => (v s).bind w := fun c s => by
  change (v (setCtx c s)).bind w = _
  rw [hv c s, except_bind_map_comm (hw c)]

/-- A value that takes no notice of `CTX`, and work that uses it. -/
theorem IgnoresCtx.bind_value {α : Type} {f : State → Except Fault α} {w : α → State → Except Fault State}
    (hf : ∀ c s, f (setCtx c s) = f s) (hw : ∀ a, IgnoresCtx (w a)) : IgnoresCtx fun s => (f s).bind fun a => w a s :=
  fun c s => by
    simp only [hf c s]
    cases f s with
    | error e => rfl
    | ok a => exact hw a c s

theorem IgnoresCtx.forRange {body : Nat → State → Except Fault State} (h : ∀ i, IgnoresCtx (body i)) :
    ∀ k, IgnoresCtx (forRange k body)
  | 0 => fun _ _ => rfl
  | k + 1 => (IgnoresCtx.forRange h k).bind (h k)

theorem IgnoresCtx.forValid {body : Nat → Nat → State → Except Fault State} (h : ∀ i j, IgnoresCtx (body i j)) :
    IgnoresCtx (forValid body) := fun c s =>
  IgnoresCtx.forRange (fun i => .forRange (h i) (s.cols - 4)) (s.rows - 4) c s

theorem ignoresCtx_storeG (i j : Nat) (v : Byte) : IgnoresCtx (storeG i j v) := fun c s => by
  change (memWrite s.mem (elementAddr s.outBase s.cols i j) v).map _ = _
  unfold storeG
  cases memWrite s.mem (elementAddr s.outBase s.cols i j) v <;> rfl

theorem ignoresCtx_storeF (i j : Nat) (v : Byte) : IgnoresCtx (storeF i j v) := fun c s => by
  change (scrWrite s.params.scratchCap s.scr (elementAddr 0 s.cols i j) v).map _ = _
  unfold storeF
  cases scrWrite s.params.scratchCap s.scr (elementAddr 0 s.cols i j) v <;> rfl

theorem rowSum_setCtx (i j : Nat) (c : Word) (s : State) : rowSum i j (setCtx c s) = rowSum i j s := rfl

theorem colSum_setCtx (i j : Nat) (c : Word) (s : State) : colSum i j (setCtx c s) = colSum i j s := rfl

theorem ignoresCtx_fusedPosition (i j : Nat) : IgnoresCtx (fusedPosition i j) :=
  .bind_value (rowSum_setCtx i j) fun s0 => .bind_value (rowSum_setCtx (i + 1) j) fun s1 =>
    .bind_value (rowSum_setCtx (i + 2) j) fun s2 => .bind_value (rowSum_setCtx (i + 3) j) fun s3 =>
      .bind_value (rowSum_setCtx (i + 4) j) fun s4 => fun c s =>
        ignoresCtx_storeG i j (fusedPx s.params.fusedFp s0 s1 s2 s3 s4) c s

theorem ignoresCtx_producerPosition (i j : Nat) : IgnoresCtx (producerPosition i j) :=
  .bind_value (rowSum_setCtx i j) fun t => ignoresCtx_storeF i j (avg5 t)

theorem ignoresCtx_consumerPosition (i j : Nat) : IgnoresCtx (consumerPosition i j) :=
  .bind_value (colSum_setCtx i j) fun t => ignoresCtx_storeG i j (avg5 t)

theorem ignoresCtx_producer : IgnoresCtx producer := fun c s =>
  IgnoresCtx.forRange (fun i => .forRange (fun j => ignoresCtx_producerPosition i j) (s.cols - 4)) s.rows c s

theorem ignoresCtx_consumer : IgnoresCtx consumer := .forValid ignoresCtx_consumerPosition

theorem ignoresCtx_stagedEffect : IgnoresCtx stagedEffect := fun c s => by
  change (producer (setCtx c (acquire s))).bind _ = _
  rw [ignoresCtx_producer c (acquire s), except_bind_map_comm, stagedEffect]
  intro u
  rw [ignoresCtx_consumer c u]
  cases consumer u <;> rfl

theorem ignoresCtx_havocOutValid : IgnoresCtx havocOutValid :=
  .forValid fun i j c s => ignoresCtx_storeG i j (Config.freeByte s.drawn) c (countDraw s)

/-- The work of every command takes no notice of `CTX` (R12). -/
theorem ignoresCtx_effectOf : ∀ i, IgnoresCtx (effectOf i)
  | .blurFused => .forValid ignoresCtx_fusedPosition
  | .blurStaged => ignoresCtx_stagedEffect
  | .computeAtStoreAt => ignoresCtx_stagedEffect
  | .computeAtStoreRoot => ignoresCtx_stagedEffect

theorem start_setCtx (w : Word) (c : Word) (s : State) : start w (setCtx c s) = setCtx c (start w s) := by
  have herr : (setCtx c s).firstError w = s.firstError w := rfl
  rcases start_cases w s with ⟨he, h⟩ | ⟨he, h⟩ <;> rcases start_cases w (setCtx c s) with ⟨he', h'⟩ | ⟨he', h'⟩
  · rw [h, h']; rfl
  · exact absurd (herr.trans he) he'
  · exact absurd (herr.symm.trans he') he
  · rw [h, h', herr]; rfl

/-- What a step answers, with its next state, if there is one, replaced. -/
def mapNext (f : State → State) : Host.Outcome State Fault Refusal → Host.Outcome State Fault Refusal
  | .next s => .next (f s)
  | .fault r => .fault r
  | .refused r => .refused r

theorem complete_setCtx {effect : State → Except Fault State} (he : IgnoresCtx effect) (c : Word) (s : State) :
    complete effect (setCtx c s) = mapNext (setCtx c) (complete effect s) := by
  have hwork : (if s.tainted then havocOutValid (setCtx c s) else effect (setCtx c s)) =
      (if s.tainted then havocOutValid s else effect s).map (setCtx c) := by
    rw [ignoresCtx_havocOutValid, he]
    split <;> rfl
  change toOutcome ((if s.tainted then havocOutValid (setCtx c s) else effect (setCtx c s)).map finish) = _
  rw [hwork, complete]
  cases (if s.tainted then havocOutValid s else effect s) <;> rfl

theorem exec_setCtx (i : Instr) (c : Word) (s : State) :
    exec i (setCtx c s) = mapNext (setCtx c) (exec i s) := by
  rw [exec_eq, exec_eq]
  have hseq : (setCtx c s).seq = s.seq := rfl
  cases hs : s.seq <;> simp only [commandStep, hseq, hs]
  case idle | done => rw [start_setCtx]; rfl
  case busy => exact complete_setCtx (ignoresCtx_effectOf i) c s
  case fault => rfl

/-- Settles O23: `exec` commutes with replacing `CTX`. -/
theorem contextIsIgnored : Obligations.ContextIsIgnored := by
  unfold Obligations.ContextIsIgnored
  refine fun i s c => ⟨fun t h => ?_, fun f h => ?_⟩
  · exact (exec_setCtx i c s).trans (by rw [h]; rfl)
  · exact (exec_setCtx i c s).trans (by rw [h]; rfl)

end Sys2Proof.Machine
end

section
/-! PROOFS. The closed form of each command's COMPLETE (R90, R106), and what it depends on (R22, R109). -/

namespace Sys2Proof.Machine

/-! ## Operands and windows of states that agree -/

theorem operandsAccepted_congr {s t : State} (hn : t.n = s.n) (hm : t.m = s.m) (hg : t.g = s.g) (hinp : t.inp = s.inp) :
    OperandsAccepted t ↔ OperandsAccepted s := by
  simp only [operandsAccepted_iff, State.rows, State.cols, State.outBase, State.inBase, hn, hm, hg, hinp]

/-- An accepted command writes none of its input (R124). -/
theorem outValid_of_inFootprint {s : State} {a : Nat} (h : OperandsAccepted s) (ha : inFootprint s a = true) :
    outValid s a = false := by
  by_contra hv
  have hout := outFootprint_of_outValid (Bool.eq_true_of_not_eq_false hv)
  rw [h.disjoint a ha] at hout
  exact absurd hout (by decide)

/-- A row sum depends on the bytes of the input footprint only. -/
theorem windowRow_congr {s t : State} (hm : t.m = s.m) (hinp : t.inp = s.inp)
    (hmem : ∀ a, inFootprint s a = true → readByte t.mem a = readByte s.mem a) {i j d : Nat} (hi : i + d < s.rows)
    (hj : j + 4 < s.cols) : windowRow t i j d = windowRow s i j d := by
  have hcols : t.cols = s.cols := congrArg BitVec.toNat hm
  have hbase : t.inBase = s.inBase := congrArg BitVec.toNat hinp
  have hsample : ∀ c, c < s.cols → sampleAt t (i + d) c = sampleAt s (i + d) c := fun c hc => by
    rw [sampleAt, sampleAt, hcols, hbase, hmem _ (inFootprint_element hi hc)]
  simp only [windowRow, hsample j (by omega), hsample (j + 1) (by omega), hsample (j + 2) (by omega),
    hsample (j + 3) (by omega), hsample (j + 4) hj]

/-- The byte a command writes depends on the operands, `FUSED_FP` and the input only (R22, R109). -/
theorem commandByte_congr {s t : State} (hm : t.m = s.m) (hinp : t.inp = s.inp)
    (hfp : t.params.fusedFp = s.params.fusedFp)
    (hmem : ∀ a, inFootprint s a = true → readByte t.mem a = readByte s.mem a) (i : Instr) {r c : Nat}
    (hr : r < s.rows - 4) (hc : c < s.cols - 4) : commandByte i t r c = commandByte i s r c := by
  have hrow : ∀ d, d < 5 → windowRow t r c d = windowRow s r c d := fun d hd =>
    windowRow_congr hm hinp hmem (by omega) (by omega)
  have hfused : fusedByte t r c = fusedByte s r c := by simp [fusedByte, hfp, hrow]
  have hstaged : stagedByte t r c = stagedByte s r c := by simp [stagedByte, hrow]
  cases i with
  | blurFused => exact hfused
  | blurStaged => exact hstaged
  | computeAtStoreAt => exact hstaged
  | computeAtStoreRoot => exact hstaged

/-- What a loop over the whole valid region has written, by the values of its bytes. -/
theorem writesExactly_of_written {s : State} {value : Nat → Nat → Byte} {byte : Nat → Nat → Nat}
    {mem : List Host.Cell} (h : Written s value (fun _ _ => True) mem) (hv : ∀ r c, (value r c).toNat = byte r c) :
    WritesExactly s byte mem := by
  refine ⟨fun r c hr hc => by rw [h.stored r c hr hc trivial, hv], fun a ha => h.kept a ?_⟩
  rintro r c hr hc _ rfl
  rw [(outValid_iff s _).2 ⟨r, c, hr, hc, rfl⟩] at ha
  exact absurd ha (by decide)

/-! ## The fused command -/

/-- A row sum at any moment of the loop is the window's: the loop has written none of its input. -/
theorem rowSum_during {s : State} (hs : OperandsAccepted s) {mem : List Host.Cell}
    (hmem : ∀ a, outValid s a = false → readByte mem a = readByte s.mem a) {i j d : Nat} (hi : i + d < s.rows)
    (hj : j + 4 < s.cols) : rowSum (i + d) j (setMem mem s) = .ok (windowRow s i j d) := by
  have hwindow : windowRow (setMem mem s) i j d = windowRow s i j d :=
    windowRow_congr (s := s) (t := setMem mem s) rfl rfl (fun a ha => hmem a (outValid_of_inFootprint hs ha)) hi hj
  rw [← hwindow]
  exact rowSum_eq (s := setMem mem s) hi hj hs.inRange

/-- The fused loop answers with the closed form of R90. -/
theorem fusedEffect_eq {s : State} (hs : OperandsAccepted s) :
    ∃ mem, fusedEffect s = .ok (setMem mem s) ∧ WritesExactly s (fusedByte s) mem := by
  have hloop := forValid_writes (s := s) (body := fusedPosition)
    (fun i j => fusedPx s.params.fusedFp (windowRow s i j 0) (windowRow s i j 1) (windowRow s i j 2)
      (windowRow s i j 3) (windowRow s i j 4)) hs.outRange ?_
  · obtain ⟨mem, hok, hw⟩ := hloop
    exact ⟨mem, hok, writesExactly_of_written hw fun _ _ => rfl⟩
  · intro i j mem hi hj hmem
    have hrow : ∀ d, d < 5 → rowSum (i + d) j (setMem mem s) = .ok (windowRow s i j d) := fun d hd =>
      rowSum_during hs hmem (by omega) (by omega)
    have hrow0 : rowSum i j (setMem mem s) = .ok (windowRow s i j 0) := hrow 0 (by omega)
    simp [fusedPosition, hrow0, hrow, Except.bind]

/-! ## The staged command -/

/-- `avg5` does not wrap on a row sum (R81). -/
theorem avg5_toNat {k : Nat} (h : k ≤ 1275) : (avg5 k).toNat = k / 5 := by
  simp only [avg5, BitVec.toNat_ofNat]
  omega

/-- `scr` holds the truncated row means of the input at the visited positions, and no other byte (R102). -/
structure Filled (s : State) (visited : Nat → Nat → Prop) (scr : List Host.Cell) : Prop where
  stored : ∀ r c, c < s.cols - 4 → visited r c →
    lookupCell scr (elementAddr 0 s.cols r c) = some (avg5 (windowRow s r c 0))
  undef : ∀ k, (∀ r c, c < s.cols - 4 → visited r c → k ≠ elementAddr 0 s.cols r c) → lookupCell scr k = none

theorem Filled.congr {s : State} {visited visited' : Nat → Nat → Prop} {scr : List Host.Cell}
    (h : Filled s visited scr) (hv : ∀ r c, c < s.cols - 4 → (visited' r c ↔ visited r c)) : Filled s visited' scr :=
  ⟨fun r c hc hrc => h.stored r c hc ((hv r c hc).1 hrc),
    fun k hk => h.undef k fun r c hc hrc => hk r c hc ((hv r c hc).2 hrc)⟩

/-- Storing the mean of one more position. -/
theorem Filled.store {s : State} {visited visited' : Nat → Nat → Prop} {scr : List Host.Cell}
    (h : Filled s visited scr) {i j : Nat} (hj : j < s.cols - 4)
    (hv : ∀ r c, c < s.cols - 4 → (visited' r c ↔ visited r c ∨ (r = i ∧ c = j))) :
    Filled s visited' (insertCell scr (elementAddr 0 s.cols i j) (avg5 (windowRow s i j 0))) := by
  constructor
  · intro r c hc hrc
    rw [lookupCell_insertCell]
    split
    · rename_i heq
      obtain ⟨rfl, rfl⟩ := elementAddr_inj (by omega) (by omega) heq
      rfl
    · rename_i hne
      rcases (hv r c hc).1 hrc with hrc | ⟨rfl, rfl⟩
      · exact h.stored r c hc hrc
      · exact absurd rfl hne
  · intro k hk
    rw [lookupCell_insertCell, if_neg (Ne.symm (hk i j hj ((hv i j hj).2 (.inr ⟨rfl, rfl⟩))))]
    exact h.undef k fun r c hc hrc => hk r c hc ((hv r c hc).2 (.inl hrc))

/-- One position of the producer, where the buffers exist. -/
theorem producerPosition_eq {s : State} (hcap : s.rows * s.cols ≤ s.params.scratchCap)
    (hin : s.inBase + s.rows * s.cols ≤ memSize) {i j : Nat} (hi : i < s.rows) (hj : j < s.cols - 4)
    (scr : List Host.Cell) :
    producerPosition i j (setScr scr s) =
      .ok (setScr (insertCell scr (elementAddr 0 s.cols i j) (avg5 (windowRow s i j 0))) s) := by
  have hsum : rowSum i j (setScr scr s) = .ok (windowRow s i j 0) :=
    rowSum_eq (s := setScr scr s) hi (show j + 4 < s.cols by omega) hin
  have haddr : elementAddr 0 s.cols i j < s.params.scratchCap := by
    have := element_lt hi (show j < s.cols by omega)
    unfold elementAddr
    omega
  rw [producerPosition, hsum]
  exact storeF_eq_ok.2 ⟨haddr, rfl⟩

/-- The producer answers, and fills the first `m-4` columns of every scratch row (R102). -/
theorem producer_eq {s : State} (hcap : s.rows * s.cols ≤ s.params.scratchCap)
    (hin : s.inBase + s.rows * s.cols ≤ memSize) :
    ∃ scr, producer (acquire s) = .ok (setScr scr s) ∧ Filled s (fun r _ => r < s.rows) scr := by
  have outer := forRange_answers (ε := Fault)
    (body := fun i si => forRange (s.cols - 4) (fun j sj => producerPosition i j sj) si)
    (fun i u => ∃ scr, u = setScr scr s ∧ Filled s (fun r _ => r < i) scr) s.rows (s := acquire s)
    ⟨[], rfl, by simp, fun _ _ => rfl⟩ ?_
  · obtain ⟨_, ht, scr, rfl, hscr⟩ := outer
    exact ⟨scr, ht, hscr⟩
  · rintro i _ hi ⟨scr0, rfl, hscr0⟩
    have inner := forRange_answers (ε := Fault) (body := fun j sj => producerPosition i j sj)
      (fun j v => ∃ scr, v = setScr scr s ∧ Filled s (fun r c => r < i ∨ (r = i ∧ c < j)) scr) (s.cols - 4)
      (s := setScr scr0 s) ⟨scr0, rfl, hscr0.congr fun r c _ => by omega⟩ ?_
    · obtain ⟨_, ht, scr, rfl, hscr⟩ := inner
      exact ⟨_, ht, scr, rfl, hscr.congr fun r c hc => by omega⟩
    · rintro j _ hj ⟨scr, rfl, hscr⟩
      exact ⟨_, producerPosition_eq hcap hin hi hj scr, _, rfl, hscr.store hj fun r c _ => by omega⟩

/-- A column sum over the filled scratch buffer (R104). -/
theorem colSum_eq {s : State} {scr : List Host.Cell} (hcap : s.rows * s.cols ≤ s.params.scratchCap)
    (hscr : Filled s (fun r _ => r < s.rows) scr) (mem : List Host.Cell) {i j : Nat} (hi : i < s.rows - 4)
    (hj : j < s.cols - 4) :
    colSum i j (setMem mem (setScr scr s)) = .ok (sum5 (avg5 (windowRow s i j 0)) (avg5 (windowRow s i j 1))
      (avg5 (windowRow s i j 2)) (avg5 (windowRow s i j 3)) (avg5 (windowRow s i j 4))) := by
  refine sumLoads_eq (a := fun d => avg5 (windowRow s i j d)) fun d hd => scrRead_eq_ok.2 ⟨?_, ?_⟩
  · have := element_lt (show i + d < s.rows by omega) (show j < s.cols by omega)
    change elementAddr 0 s.cols (i + d) j < s.params.scratchCap
    unfold elementAddr
    omega
  · exact hscr.stored (i + d) j hj (by omega)

/-- The staged command answers with the closed form of R106. -/
theorem stagedEffect_eq {s : State} (hs : OperandsAccepted s) (hcap : s.rows * s.cols ≤ s.params.scratchCap) :
    ∃ mem, stagedEffect s = .ok (setScr [] (setMem mem s)) ∧ WritesExactly s (stagedByte s) mem := by
  obtain ⟨scr, hproducer, hscr⟩ := producer_eq hcap hs.inRange
  obtain ⟨mem, hconsumer, hw⟩ := forValid_writes (s := setScr scr s) (body := consumerPosition)
    (fun i j => avg5 (sum5 (avg5 (windowRow s i j 0)) (avg5 (windowRow s i j 1)) (avg5 (windowRow s i j 2))
      (avg5 (windowRow s i j 3)) (avg5 (windowRow s i j 4)))) hs.outRange fun i j mem hi hj _ => by
    rw [consumerPosition, colSum_eq hcap hscr mem hi hj]
    rfl
  refine ⟨mem, by rw [stagedEffect, hproducer, Except.bind, consumer, hconsumer]; rfl,
    writesExactly_of_written (s := setScr scr s) hw fun r c => ?_⟩
  rw [avg5_toNat (sum5_le _ _ _ _ _)]
  simp only [sum5, avg5_toNat (windowRow_le s r c _)]
  rfl

/-! ## Every command -/

/-- COMPLETE of an accepted command, hands off, answers with the closed form of its bytes (R61, R62). -/
theorem exec_completes {i : Instr} {s : State} (hb : s.seq = .busy) (ht : s.tainted = false) (hs : OperandsAccepted s)
    (hcap : scratchAccepted i s) :
    ∃ mem, exec i s = .next (finish (setMem mem s)) ∧ WritesExactly s (commandByte i s) mem := by
  have hexec : ∀ {u}, effectOf i s = .ok u → exec i s = .next (finish u) := fun hu => by
    simp [exec_eq, commandStep, hb, complete, ht, hu, Except.map, toOutcome]
  have hstaged : i ≠ .blurFused → effectOf i = stagedEffect → commandByte i s = stagedByte s →
      ∃ mem, exec i s = .next (finish (setMem mem s)) ∧ WritesExactly s (commandByte i s) mem := fun hi he hbyte => by
    obtain ⟨mem, hok, hw⟩ := stagedEffect_eq hs (hcap hi)
    have hfinish : exec i s = .next (finish (setScr [] (setMem mem s))) := hexec (he ▸ hok)
    exact ⟨mem, hfinish, hbyte ▸ hw⟩
  cases i with
  | blurFused =>
    obtain ⟨mem, hok, hw⟩ := fusedEffect_eq hs
    exact ⟨mem, hexec hok, hw⟩
  | blurStaged => exact hstaged (by decide) rfl rfl
  | computeAtStoreAt => exact hstaged (by decide) rfl rfl
  | computeAtStoreRoot => exact hstaged (by decide) rfl rfl

/-- Settles O24: both completions have the closed form, which depends on the operands and the input only. -/
theorem outputDependsOnOperandsAndInputOnly : Obligations.OutputDependsOnOperandsAndInputOnly := by
  unfold Obligations.OutputDependsOnOperandsAndInputOnly
  intro i s s' hb hb' ht ht' hs hcap hcap' hn hm hg hinp hfp hmem
  obtain ⟨mem, he, hw, _⟩ := exec_completes hb ht hs hcap
  obtain ⟨mem', he', hw', _⟩ := exec_completes hb' ht' ((operandsAccepted_congr hn hm hg hinp).2 hs) hcap'
  refine ⟨_, _, he, he', fun a ha => ?_⟩
  obtain ⟨r, c, hr, hc, rfl⟩ := (outValid_iff s a).1 ha
  have hrows : s'.rows = s.rows := congrArg BitVec.toNat hn
  have hcols : s'.cols = s.cols := congrArg BitVec.toNat hm
  have hbase : s'.outBase = s.outBase := congrArg BitVec.toNat hg
  rw [hrows, hcols, hbase] at hw'
  apply BitVec.eq_of_toNat_eq
  calc (readByte mem' (elementAddr s.outBase s.cols r c)).toNat
      = commandByte i s' r c := hw' r c hr hc
    _ = commandByte i s r c := commandByte_congr hm hinp hfp hmem i hr hc
    _ = (readByte mem (elementAddr s.outBase s.cols r c)).toNat := (hw r c hr hc).symm

end Sys2Proof.Machine
end

section
/-! PROOFS. How each event moves the sequencer, and that each keeps the invariant. -/

namespace Sys2Proof.Machine

/-! ## The sequencer, event by event -/

@[simp] theorem regRead_seq (r : Reg) (s : State) : (regRead r s).seq = s.seq := by simp [regRead_eq]

theorem writeOperand_seq (r : Reg) (v : Word) (s : State) : (writeOperand r v s).seq = s.seq := by
  obtain ⟨_, h, _⟩ := writeOperand_frame r v s
  exact h

/-- START ends in `BUSY` or `FAULT` (R60). -/
theorem start_seq (w : Word) (s : State) : (start w s).seq = .busy ∨ (start w s).seq = .fault := by
  rcases start_cases w s with ⟨_, h⟩ | ⟨_, h⟩ <;> simp [h]

/-- A write of `CMD` is the only transaction that moves the sequencer (R18). -/
theorem portStep_seq {t : Transaction} {s u : State} (h : portStep t s = .next u) :
    u.seq = s.seq ∨ (openState s ∧ (u.seq = .busy ∨ u.seq = .fault) ∧ ∃ w, Event.port t = wr .cmd w) := by
  unfold portStep at h
  split at h
  · rename_i hw
    by_cases ho : openState s
    · rw [regWrite_of_open ho] at h
      split at h
      · rename_i hcmd
        obtain rfl := Host.Outcome.next.inj h
        have hidx : t.idx = Reg.idx .cmd := by rw [← hcmd, idx_ofIdx]
        exact .inr ⟨ho, start_seq _ _, t.wdata, by rw [wr, ← hidx, ← hw]⟩
      · obtain rfl := Host.Outcome.next.inj h
        exact .inl (writeOperand_seq _ _ _)
    · rw [regWrite_of_not_open ho] at h
      obtain rfl := Host.Outcome.next.inj h
      exact .inl rfl
  · obtain rfl := Host.Outcome.next.inj h
    exact .inl (regRead_seq _ _)

theorem toOutcome_eq_next {x : Except Fault State} {t : State} : toOutcome x = .next t ↔ x = .ok t := by
  cases x <;> simp [toOutcome]

theorem hostWrite_seq {a : Word} {v : Byte} {s t : State} (h : hostWrite a v s = .next t) : t.seq = s.seq :=
  breakHandsOff_seq (s := setMem (setByte s.mem a.toNat v) s) (toOutcome_eq_next.1 h)

theorem hostRead_seq {a : Word} {s t : State} (h : hostRead a s = .next t) : t.seq = s.seq := by
  rcases hostRead_cases a s with ⟨_, he⟩ | ⟨_, he⟩ <;> rw [he] at h
  · exact breakHandsOff_seq (s := countDraw (respond _ s)) (toOutcome_eq_next.1 h)
  · obtain rfl := Host.Outcome.next.inj h
    rfl

theorem completeStep_seq {s t : State} (hb : s.seq = .busy) (h : completeStep s = .next t) : t.seq = .done := by
  obtain ⟨_, u, _, _, rfl⟩ := completeStep_eq_next hb h
  rfl

theorem engineTurn_seq {s t : State} (h : engineTurn s = .next t) :
    t.seq = s.seq ∨ (s.seq = .busy ∧ t.seq = .done) := by
  rcases engineTurn_cases s with ⟨hb, he⟩ | ⟨_, he⟩ <;> rw [he] at h
  · exact .inr ⟨hb, completeStep_seq hb h⟩
  · obtain rfl := Host.Outcome.next.inj h
    exact .inl rfl

theorem pollStep_seq {spins : Nat} {rest : List Event} {s t : State} (h : pollStep spins rest s = .next t) :
    t.seq = s.seq ∨ (s.seq = .busy ∧ t.seq = .done ∧ spins = 0) := by
  rcases pollStep_cases spins rest s with ⟨hb, hz, he⟩ | ⟨es, he, _⟩ <;> rw [he] at h
  · exact .inr ⟨hb, completeStep_seq (s := setEvents (.poll 0 :: rest) s) hb h, hz⟩
  · obtain rfl := Host.Outcome.next.inj h
    exact .inl (regRead_seq _ _)

theorem resetEvent_seq {s t : State} (h : resetEvent s = .next t) : t.seq = .idle := by
  rcases resetEvent_eq_next h with ⟨_, rfl⟩ | ⟨_, u, _, rfl⟩ <;> rfl

/-- Settles O33: START, COMPLETE and reset are the only events that move the sequencer (R17). -/
theorem sequencerTransitions : Obligations.SequencerTransitions := by
  unfold Obligations.SequencerTransitions
  intro s t h hne
  rcases step_cases s with ⟨hev, he⟩ | ⟨e, rest, hev, he⟩ <;> rw [he] at h
  · obtain ⟨hb, ht⟩ := (engineTurn_seq h).resolve_left hne
    exact .inr (.inl ⟨hb, ht, .inl hev⟩)
  · cases e with
    | port tr =>
      obtain ⟨ho, ht, w, hw⟩ := (portStep_seq (s := setEvents rest s) h).resolve_left hne
      exact .inl ⟨ho, ht, w, rest, hw ▸ hev⟩
    | memWrite a v => exact absurd (hostWrite_seq (s := setEvents rest s) h) hne
    | memRead a => exact absurd (hostRead_seq (s := setEvents rest s) h) hne
    | engine =>
      obtain ⟨hb, ht⟩ := (engineTurn_seq (s := setEvents rest s) h).resolve_left hne
      exact .inr (.inl ⟨hb, ht, .inr (.inl ⟨rest, hev⟩)⟩)
    | poll spins =>
      obtain ⟨hb, ht, rfl⟩ := (pollStep_seq h).resolve_left hne
      exact .inr (.inl ⟨hb, ht, .inr (.inr ⟨rest, hev⟩)⟩)
    | reset => exact .inr (.inr ⟨resetEvent_seq h, rest, hev⟩)

/-! ## The invariant, event by event -/

/-- Whether operands are accepted is up to the operands alone (R122 to R124). -/
theorem accepted_useOperands (o : Operands) (s t : State) :
    OperandsAccepted (useOperands o t) ↔ OperandsAccepted (useOperands o s) :=
  operandsAccepted_congr rfl rfl rfl rfl

/-- The invariant bears on the engine; it lets the model's own fields and canonical memory change under it. -/
theorem Inv.update {s : State} (h : Inv s) {mem : List Host.Cell} {events : List Event} {out : List Response}
    {tainted : Bool} {unseen : List Operands} {drawn : Nat} (hmem : Memory.wf mem)
    (ht : tainted = true → s.seq = .busy) (hu : ∀ o ∈ unseen, o ∈ s.unseen) :
    Inv { s with mem := mem, events := events, out := out, tainted := tainted, unseen := unseen, drawn := drawn } where
  mem := hmem
  scr := h.scr
  err := h.err
  idle := h.idle
  busy := h.busy
  done := h.done
  fault := h.fault
  tainted := ht
  unseen o ho := (accepted_useOperands o s _).2 (h.unseen o (hu o ho))
  idleUnseen hi := List.eq_nil_iff_forall_not_mem.2 fun o ho => by
    have := hu o ho
    rw [h.idleUnseen hi] at this
    exact absurd this List.not_mem_nil

theorem Inv.setEvents {s : State} (h : Inv s) (es : List Event) : Inv (setEvents es s) :=
  h.update h.mem h.tainted fun _ => id

theorem Inv.respond {s : State} (h : Inv s) (r : Response) : Inv (respond r s) :=
  h.update h.mem h.tainted fun _ => id

theorem Inv.countDraw {s : State} (h : Inv s) : Inv (countDraw s) := h.update h.mem h.tainted fun _ => id

theorem Inv.setMem {s : State} (h : Inv s) {mem : List Host.Cell} (hmem : Memory.wf mem) : Inv (setMem mem s) :=
  h.update hmem h.tainted fun _ => id

theorem Inv.regRead {s : State} (h : Inv s) (r : Reg) : Inv (regRead r s) := by
  rw [regRead_eq]
  refine h.update h.mem h.tainted fun o ho => ?_
  split at ho
  · exact absurd ho List.not_mem_nil
  · exact ho

theorem Inv.err_eq_none {s : State} (h : Inv s) (hs : s.seq ≠ .fault) : s.err = .none :=
  not_not.1 fun he => hs (h.err.1 he)

theorem Inv.not_tainted {s : State} (h : Inv s) (hs : s.seq ≠ .busy) : s.tainted = false :=
  Bool.eq_false_iff.2 fun ht => hs (h.tainted ht)

theorem openState.ne_busy {s : State} (ho : openState s) : s.seq ≠ .busy := by rcases ho with h | h <;> simp [h]

theorem openState.ne_fault {s : State} (ho : openState s) : s.seq ≠ .fault := by rcases ho with h | h <;> simp [h]

/-- The operand registers are free to change in `IDLE` and `DONE`: there the invariant says nothing of them. -/
theorem Inv.writeOperand {s : State} (h : Inv s) (ho : openState s) (r : Reg) (v : Word) :
    Inv (writeOperand r v s) := by
  obtain ⟨hcmd, hseq, herr, hscr, hmem, _, _, _, htainted, hunseen, _⟩ := writeOperand_frame r v s
  constructor
  case mem => rw [hmem]; exact h.mem
  case scr => rw [hscr]; exact h.scr
  case err => rw [herr, hseq]; exact h.err
  case idle => rw [hseq, hcmd]; exact h.idle
  case busy => rw [hseq]; exact fun hb => absurd hb ho.ne_busy
  case done => rw [hseq, hcmd]; exact h.done
  case fault => rw [hseq]; exact fun hf => absurd hf ho.ne_fault
  case tainted => rw [htainted, hseq]; exact h.tainted
  case unseen =>
    rw [hunseen]
    exact fun o ho => (accepted_useOperands o s _).2 (h.unseen o ho)
  case idleUnseen => rw [hseq, hunseen]; exact h.idleUnseen

/-- START keeps the invariant: `BUSY` with the checks passed, or `FAULT` with the error of the word (R60). -/
theorem Inv.start {s : State} (h : Inv s) (ho : openState s) (w : Word) : Inv (start w s) := by
  have hunseen : ∀ {t : State}, ∀ o ∈ s.unseen, OperandsAccepted (useOperands o t) := fun o ho =>
    (accepted_useOperands o s _).2 (h.unseen o ho)
  rcases start_cases w s with ⟨he, hs⟩ | ⟨he, hs⟩ <;> rw [hs]
  · exact
      { mem := h.mem, scr := h.scr, unseen := hunseen
        err := by simp [h.err_eq_none ho.ne_fault]
        idle := nofun, busy := fun _ => he, done := nofun, fault := nofun, tainted := nofun, idleUnseen := nofun }
  · exact
      { mem := h.mem, scr := h.scr, unseen := hunseen
        err := by simp [he]
        idle := nofun, busy := nofun, done := nofun, fault := fun _ => rfl, tainted := nofun, idleUnseen := nofun }

theorem Inv.portStep {s u : State} (hi : Inv s) {t : Transaction} (h : portStep t s = .next u) : Inv u := by
  unfold Machine.portStep at h
  split at h
  · by_cases ho : openState s
    · rw [regWrite_of_open ho] at h
      obtain rfl := Host.Outcome.next.inj h
      split
      · exact hi.start ho _
      · exact hi.writeOperand ho _ _
    · rw [regWrite_of_not_open ho] at h
      obtain rfl := Host.Outcome.next.inj h
      exact hi
  · obtain rfl := Host.Outcome.next.inj h
    exact hi.regRead _

/-- The output buffers of the commands completed unseen exist (R123). -/
theorem Inv.unseen_outRange {s : State} (h : Inv s) (o : Operands) (ho : o ∈ s.unseen) :
    (useOperands o s).outBase + (useOperands o s).rows * (useOperands o s).cols ≤ memSize :=
  (h.unseen o ho).outRange

/-- An access by the host leaves free bytes, and the mark of a violation only where a command runs. -/
theorem Inv.breakHandsOff {s t : State} (hi : Inv s) {touches : State → Bool}
    (h : breakHandsOff touches s = .ok t) : Inv t := by
  have hmem := breakHandsOff_wf h hi.mem
  obtain ⟨mem, count, hok, _⟩ := breakHandsOff_eq (touches := touches) hi.unseen_outRange
  rw [hok] at h
  obtain rfl := Except.ok.inj h
  refine hi.update hmem (fun ht => ?_) fun _ => id
  rcases Bool.or_eq_true_iff.1 ht with ht | ht
  · exact hi.tainted ht
  · exact of_decide_eq_true (Bool.and_eq_true_iff.1 ht).1

theorem Inv.hostWrite {s t : State} (hi : Inv s) {a : Word} {v : Byte} (h : hostWrite a v s = .next t) : Inv t :=
  (hi.setMem (setByte_wf v a.isLt hi.mem)).breakHandsOff (toOutcome_eq_next.1 h)

theorem Inv.hostRead {s t : State} (hi : Inv s) {a : Word} (h : hostRead a s = .next t) : Inv t := by
  rcases hostRead_cases a s with ⟨_, he⟩ | ⟨_, he⟩ <;> rw [he] at h
  · exact (hi.respond _).countDraw.breakHandsOff (toOutcome_eq_next.1 h)
  · obtain rfl := Host.Outcome.next.inj h
    exact hi.respond _

/-- A word that is not illegal is a legal one (R55, R121). -/
theorem legalWord_of_not_illegal {w : Word} (h : ¬ illegal w) : legalWord w = true := by
  obtain ⟨hr, hop⟩ := not_or.1 h
  have hr : w.extractLsb' 8 24 = 0#24 := not_not.1 hr
  have hop : w.extractLsb' 0 8 = 1#8 ∨ w.extractLsb' 0 8 = 2#8 ∨ w.extractLsb' 0 8 = 3#8 ∨ w.extractLsb' 0 8 = 4#8 :=
    not_not.1 hop
  simp only [legalWord, reservedClear, opAssigned, hr]
  rcases hop with hop | hop | hop | hop <;> simp [hop]

/-- What the checks of START have established of a running command (R121 to R125). -/
theorem Inv.running {s : State} (h : Inv s) (hb : s.seq = .busy) : legalWord s.cmd = true ∧ OperandsAccepted s := by
  obtain ⟨hlegal, hprecond, hrange, halias, _⟩ := firstError_eq_none.1 (h.busy hb)
  exact ⟨legalWord_of_not_illegal hlegal, (operandsAccepted_iff s).2 ⟨hprecond, hrange, halias⟩⟩

/-- COMPLETE keeps the invariant: the command that passed the checks is the one now unseen (R61). -/
theorem Inv.completeStep {s t : State} (hi : Inv s) (hb : s.seq = .busy) (h : completeStep s = .next t) : Inv t := by
  obtain ⟨i, u, _, hu, rfl⟩ := completeStep_eq_next hb h
  obtain ⟨⟨hc, hwf, _⟩, _⟩ := engineWork_complete hu
  obtain ⟨hlegal, haccepted⟩ := hi.running hb
  have herr : u.err = .none := hc.err.trans (hi.err_eq_none (by simp [hb]))
  constructor
  case mem => exact hwf hi.mem
  case scr => rfl
  case err => simp [herr]
  case idle => exact nofun
  case busy => exact nofun
  case done => exact fun _ => (congrArg legalWord hc.cmd).trans hlegal
  case fault => exact nofun
  case tainted => exact nofun
  case idleUnseen => exact nofun
  case unseen =>
    intro o ho
    rw [finish_unseen, hc.unseen, hc.operands, List.mem_append, List.mem_singleton] at ho
    rcases ho with ho | rfl
    · exact (accepted_useOperands o s _).2 (hi.unseen o ho)
    · exact (accepted_useOperands s.operands s _).2 haccepted

theorem Inv.engineTurn {s t : State} (hi : Inv s) (h : engineTurn s = .next t) : Inv t := by
  rcases engineTurn_cases s with ⟨hb, he⟩ | ⟨_, he⟩ <;> rw [he] at h
  · exact hi.completeStep hb h
  · obtain rfl := Host.Outcome.next.inj h
    exact hi

theorem Inv.pollStep {s t : State} (hi : Inv s) {spins : Nat} {rest : List Event}
    (h : pollStep spins rest s = .next t) : Inv t := by
  rcases pollStep_cases spins rest s with ⟨hb, _, he⟩ | ⟨es, he, _⟩ <;> rw [he] at h
  · exact (hi.setEvents (.poll 0 :: rest)).completeStep hb h
  · obtain rfl := Host.Outcome.next.inj h
    exact (hi.regRead _).setEvents _

/-- Reset establishes the invariant over any canonical memory (R24, R150). -/
theorem inv_resetEngine {s : State} (h : Memory.wf s.mem) : Inv (resetEngine s) where
  mem := h
  scr := rfl
  err := by simp
  idle _ := rfl
  busy := nofun
  done := nofun
  fault := nofun
  tainted := nofun
  unseen := nofun
  idleUnseen _ := rfl

theorem Inv.resetEvent {s t : State} (hi : Inv s) (h : resetEvent s = .next t) : Inv t := by
  rcases resetEvent_eq_next h with ⟨_, rfl⟩ | ⟨_, u, hu, rfl⟩
  · exact inv_resetEngine hi.mem
  · exact inv_resetEngine ((engineWork_havocOutValid hu).wf hi.mem)

/-- Settles O37: each event keeps the invariant. -/
theorem everyStepKeepsTheInvariant : Obligations.EveryStepKeepsTheInvariant := by
  unfold Obligations.EveryStepKeepsTheInvariant
  intro s t hi h
  rcases step_cases s with ⟨_, he⟩ | ⟨e, rest, _, he⟩ <;> rw [he] at h
  · exact hi.engineTurn h
  · cases e with
    | port tr => exact (hi.setEvents rest).portStep h
    | memWrite a v => exact (hi.setEvents rest).hostWrite h
    | memRead a => exact (hi.setEvents rest).hostRead h
    | engine => exact (hi.setEvents rest).engineTurn h
    | poll spins => exact hi.pollStep h
    | reset => exact (hi.setEvents rest).resetEvent h

end Sys2Proof.Machine
end

section
/-! PROOFS. The host's accesses to memory outside `BUSY` and before it has read `DONE` (R30, R39, R153), and two engines
that share a memory (R43, R132). -/

namespace Sys2Proof.Machine

/-! ## The host's accesses, event by event -/

/-- A load by the host that breaks nothing returns the byte (R30). -/
theorem hostRead_of_not_breaks {a : Word} {s : State} (h : breaksHandsOff (loadTouches a.toNat) s = false) :
    hostRead a s = .next (respond (.byte a (readByte s.mem a.toNat)) s) := by
  rcases hostRead_cases a s with ⟨hb, _⟩ | ⟨_, he⟩
  · exact absurd (hb.symm.trans h) (by decide)
  · exact he

/-- Outside `BUSY` an access breaks R153 only where it touches a command completed unseen. -/
theorem breaksHandsOff_outside_busy {touches : State → Bool} {s : State} (hb : s.seq ≠ .busy)
    (h : ∀ o ∈ s.unseen, touches (useOperands o s) = false) : breaksHandsOff touches s = false :=
  breaksHandsOff_eq_false.2 ⟨fun hbusy => absurd hbusy hb, h⟩

/-- A store outside `BUSY` that R153 allows, as a whole-state equation. -/
theorem step_memWrite_outside_busy {s : State} {a : Word} {v : Byte} {rest : List Event}
    (he : s.events = .memWrite a v :: rest) (hb : s.seq ≠ .busy)
    (h : ∀ o ∈ s.unseen,
      inFootprint (useOperands o s) a.toNat = false ∧ outFootprint (useOperands o s) a.toNat = false) :
    step s = .next { s with events := rest, mem := setByte s.mem a.toNat v } := by
  have hkeeps : breaksHandsOff (storeTouches a.toNat) (setEvents rest s) = false :=
    breaksHandsOff_outside_busy hb fun o ho => Bool.or_eq_false_iff.2 (h o ho)
  rw [step_cons he, eventStep, hostWrite_of_not_breaks hkeeps]
  rfl

/-- A load outside `BUSY` that R153 allows, as a whole-state equation. -/
theorem step_memRead_outside_busy {s : State} {a : Word} {rest : List Event} (he : s.events = .memRead a :: rest)
    (hb : s.seq ≠ .busy) (h : ∀ o ∈ s.unseen, outFootprint (useOperands o s) a.toNat = false) :
    step s = .next { s with events := rest, out := s.out ++ [.byte a (readByte s.mem a.toNat)] } := by
  have hkeeps : breaksHandsOff (loadTouches a.toNat) (setEvents rest s) = false := breaksHandsOff_outside_busy hb h
  rw [step_cons he, eventStep, hostRead_of_not_breaks hkeeps]
  rfl

/-- Settles O30: the two whole-state equations, and the law of a read after a store. -/
theorem hostAccessOutsideBusy : Obligations.HostAccessOutsideBusy := by
  unfold Obligations.HostAccessOutsideBusy
  intro s a rest hb
  refine ⟨fun v he h => ⟨_, step_memWrite_outside_busy he hb h, fun b => ?_⟩,
    fun he h => step_memRead_outside_busy he hb h⟩
  simp only [readByte_setByte, eq_comm]

/-! ## A command the access does not touch (R39 (b)) -/

/-- What a violation does beyond the access itself leaves a completed command's results as they are, where the access
does not touch the command, it has read no result of an earlier one, and no later one has written there. -/
theorem breakHandsOff_keeps_untouched {touches : State → Bool} {s t : State} {pre post : List Operands} {o : Operands}
    {b : Nat} (h : breakHandsOff touches s = .ok t) (hs : s.unseen = pre ++ o :: post)
    (ht : touches (useOperands o s) = false)
    (hpre : ∀ p ∈ pre, ∀ c, inFootprint (useOperands o s) c = true → outValid (useOperands p s) c = false)
    (hpost : ∀ p ∈ post, outValid (useOperands p s) b = false) (hb : outValid (useOperands o s) b = true) :
    readByte t.mem b = readByte s.mem b := by
  by_contra hn
  obtain ⟨_, hspoiled⟩ := breakHandsOff_changes h hn
  rw [spoiled_of_disjoint hs ht hpre hpost hb] at hspoiled
  exact absurd hspoiled (by decide)

/-- Settles O54: the access itself is outside `OutValid`, and what it does beyond itself keeps the command's results. -/
theorem untouchedCommandKeepsItsResults : Obligations.UntouchedCommandKeepsItsResults := by
  unfold Obligations.UntouchedCommandKeepsItsResults
  intro s t e a rest pre post o he haccess hout hstep hs hpre b hb hpost
  rw [step_cons he] at hstep
  rcases haccess with ⟨v, rfl, hin⟩ | rfl
  · have hne : a.toNat ≠ b := by
      rintro rfl
      exact absurd (hout.symm.trans (outFootprint_of_outValid hb)) (by decide)
    calc readByte t.mem b
        = readByte (setByte s.mem a.toNat v) b :=
          breakHandsOff_keeps_untouched (s := setMem (setByte s.mem a.toNat v) (setEvents rest s))
            (toOutcome_eq_next.1 hstep) hs (Bool.or_eq_false_iff.2 ⟨hin, hout⟩) hpre hpost hb
      _ = readByte s.mem b := by rw [readByte_setByte, if_neg hne]
  · rcases hostRead_cases a (setEvents rest s) with ⟨_, hr⟩ | ⟨_, hr⟩
    · exact breakHandsOff_keeps_untouched (s := countDraw (respond _ (setEvents rest s)))
        (toOutcome_eq_next.1 (hr.symm.trans hstep)) hs hout hpre hpost hb
    · obtain rfl := Host.Outcome.next.inj (hr.symm.trans hstep)
      rfl

/-! ## A load after `DONE` has been read -/

/-- COMPLETE finds the command whose word `CMD` holds (R61). -/
theorem completeStep_of_cmd {i : Instr} {s : State} (hc : s.cmd = encode i) : completeStep s = exec i s := by
  rw [completeStep, hc, decodeOp_eq_some.2 rfl]

@[simp] theorem commandByte_setEvents (i : Instr) (es : List Event) (s : State) :
    commandByte i (setEvents es s) = commandByte i s := by cases i <;> rfl

/-- The engine's turn in `BUSY`, hands off: the command's bytes are at `OutValid`, and `STATE` is `DONE` (R61). -/
theorem step_engine_completes {i : Instr} {s : State} {rest : List Event} (he : s.events = .engine :: rest)
    (hb : s.seq = .busy) (ht : s.tainted = false) (hc : s.cmd = encode i) (hs : OperandsAccepted s)
    (hcap : scratchAccepted i s) :
    ∃ mem, step s = .next { s with
        events := rest, mem := mem, scr := [], seq := .done, tainted := false,
        unseen := s.unseen ++ [s.operands] } ∧
      WritesExactly s (commandByte i s) mem := by
  have haccepted : OperandsAccepted (setEvents rest s) := (accepted_useOperands s.operands s (setEvents rest s)).2 hs
  obtain ⟨mem, hexec, hw⟩ := exec_completes (i := i) (s := setEvents rest s) hb ht haccepted hcap
  rw [commandByte_setEvents] at hw
  refine ⟨mem, ?_, hw⟩
  rw [step_cons he, eventStep, engineTurn, if_pos (show (setEvents rest s).seq = .busy from hb),
    completeStep_of_cmd (s := setEvents rest s) hc, hexec]
  rfl

/-- A read of `STATUS` that returns `DONE` ends the hands-off window of every completed command (R14, R153). -/
theorem step_rd_status_of_done {s : State} {rest : List Event} (he : s.events = rd .status :: rest)
    (hd : s.seq = .done) :
    step s = .next { s with events := rest, out := s.out ++ [.reg .status 2#32], unseen := [] } := by
  have hword : readReg .status s = 2#32 := by simp [readReg, statusWord, hd, SeqState.code]
  rw [step_read he rfl]
  simp [hd, hword]

/-- Settles O53: the three steps, one equation each; after the second the host may load from `OutValid`. -/
theorem loadAfterDoneReturnsTheResult : Obligations.LoadAfterDoneReturnsTheResult := by
  unfold Obligations.LoadAfterDoneReturnsTheResult
  intro i s a r c rest hb ht hc hs hcap hr hcol ha he
  obtain ⟨mem, hcomplete, hstored, hkept⟩ := step_engine_completes he hb ht hc hs hcap
  have hvalue : (readByte mem a.toNat).toNat = commandByte i s r c := ha ▸ hstored r c hr hcol
  refine ⟨mem, readByte mem a.toNat, ?_, hvalue, hstored, hkept⟩
  rw [runSteps_succ hcomplete, runSteps_succ (step_rd_status_of_done rfl rfl),
    runSteps_succ (step_memRead_outside_busy rfl (by simp) (by simp))]
  simp [ht]

/-! ## Two engines on one memory (R43, R132) -/

/-- No command changes a byte outside its `OutValid` (R92, R110). -/
theorem exec_keeps_outside_outValid {i : Instr} {s t : State} (h : exec i s = .next t) {x : Nat}
    (hx : outValid s x = false) : readByte t.mem x = readByte s.mem x := by
  obtain ⟨_, _, _, _, _, _, _, _, _, _, _, _, _, hframe⟩ := commandFrame i s t h
  exact hframe x hx

/-- COMPLETE over another memory with the same input: at `OutValid` the bytes it gives over its own, and elsewhere the
other memory (R22, R109, R110). -/
theorem exec_over_memory {i : Instr} {s t : State} {mem : List Host.Cell} (hb : s.seq = .busy)
    (ht : s.tainted = false) (hs : OperandsAccepted s) (hcap : scratchAccepted i s) (hexec : exec i s = .next t)
    (hin : ∀ x, inFootprint s x = true → readByte mem x = readByte s.mem x) :
    ∃ u, exec i { s with mem := mem } = .next u ∧
      ∀ x, readByte u.mem x = if outValid s x = true then readByte t.mem x else readByte mem x := by
  obtain ⟨t', u, hexec', hu, hagree⟩ :=
    outputDependsOnOperandsAndInputOnly i s { s with mem := mem } hb hb ht ht hs hcap hcap rfl rfl rfl rfl rfl hin
  obtain rfl := Host.Outcome.next.inj (hexec.symm.trans hexec')
  refine ⟨u, hu, fun x => ?_⟩
  split
  · next hv => exact hagree x hv
  · next hv => exact exec_keeps_outside_outValid hu (Bool.eq_false_iff.2 hv)

/-- What one engine's COMPLETE has changed is none of what an engine it is disjoint from reads or writes (R43). -/
theorem outValid_of_disjoint {a b : State}
    (hab : ∀ x, outFootprint a x = true → inFootprint b x = false ∧ outFootprint b x = false) {x : Nat}
    (hx : inFootprint b x = true ∨ outValid b x = true) : outValid a x = false := by
  by_contra hv
  obtain ⟨hin, hout⟩ := hab x (outFootprint_of_outValid (Bool.eq_true_of_not_eq_false hv))
  rcases hx with hx | hx
  · exact absurd (hin.symm.trans hx) (by decide)
  · exact absurd (hout.symm.trans (outFootprint_of_outValid hx)) (by decide)

/-- Settles O25: the second COMPLETE finds its input unchanged, and neither writes at the other's `OutValid`. -/
theorem disjointEnginesDoNotInterfere : Obligations.DisjointEnginesDoNotInterfere := by
  unfold Obligations.DisjointEnginesDoNotInterfere
  intro i j a b hbusya hbusyb hta htb hsa hsb hcapa hcapb hmem hdisjab hdisjba
  obtain ⟨ta, ha⟩ : ∃ ta, exec i a = .next ta := (exec_completes hbusya hta hsa hcapa).imp' _ fun _ h => h.1
  obtain ⟨tb, hb⟩ : ∃ tb, exec j b = .next tb := (exec_completes hbusyb htb hsb hcapb).imp' _ fun _ h => h.1
  have hkepta : ∀ x, outValid a x = false → readByte ta.mem x = readByte a.mem x := fun _ =>
    exec_keeps_outside_outValid ha
  have hkeptb : ∀ x, outValid b x = false → readByte tb.mem x = readByte a.mem x := hmem ▸ fun _ =>
    exec_keeps_outside_outValid hb
  obtain ⟨tab, hexecab, htab⟩ := exec_over_memory hbusyb htb hsb hcapb hb fun x hx =>
    hmem ▸ hkepta x (outValid_of_disjoint hdisjab (.inl hx))
  obtain ⟨tba, hexecba, htba⟩ := exec_over_memory hbusya hta hsa hcapa ha fun x hx =>
    hkeptb x (outValid_of_disjoint hdisjba (.inl hx))
  refine ⟨ta, tb, tab, tba, ha, hb, hexecab, hexecba, fun x => ?_⟩
  rw [htab, htba]
  cases hva : outValid a x with
  | true =>
    have hvb : outValid b x = false := outValid_of_disjoint hdisjba (.inr hva)
    simp [hvb]
  | false =>
    cases hvb : outValid b x with
    | true => simp
    | false => simp [hkepta x hva, hkeptb x hvb]

end Sys2Proof.Machine
end

section
/-! PROOFS. The command words and their decoder, START, the engine's turn and the poll, and whole calls. -/

namespace Sys2Proof.Machine

/-! ## Command words (R52, R53, R55) -/

@[simp] theorem reservedField_encode (i : Instr) : reservedField (encode i) = 0#24 := by cases i <;> rfl

/-- The codes R55 reserves: zero, and those from `0x05` on. -/
theorem decodeOp_eq_none {op : Byte} : decodeOp op = none ↔ op = 0#8 ∨ 5#8 ≤ op := by revert op; decide

/-- All the decoder can answer: a reserved bit, a command for its own word, a reserved `OP`. -/
theorem decode_cases (w : Word) :
    (reservedField w ≠ 0#24 ∧ decode w = .error .reservedBitSet) ∨
      (∃ i, w = encode i ∧ decode w = .ok i) ∨
      (reservedField w = 0#24 ∧ decodeOp (opField w) = none ∧ decode w = .error (.reservedOp (opField w))) := by
  unfold decode
  by_cases hr : reservedField w = 0#24
  · cases hop : decodeOp (opField w) with
    | none => exact .inr (.inr ⟨hr, rfl, by simp [hr]⟩)
    | some i => exact .inr (.inl ⟨i, word_ext (by simp [hr]) (decodeOp_eq_some.1 hop), by simp [hr]⟩)
  · exact .inl ⟨hr, by simp [hr]⟩

theorem decode_encode (i : Instr) : decode (encode i) = .ok i := by
  simp [decode, decodeOp_eq_some.2 (rfl : opField (encode i) = opField (encode i))]

theorem decode_eq_ok {w : Word} {i : Instr} : decode w = .ok i ↔ w = encode i := by
  refine ⟨fun h => ?_, fun h => h ▸ decode_encode i⟩
  rcases decode_cases w with ⟨_, hd⟩ | ⟨j, hw, hd⟩ | ⟨_, _, hd⟩ <;> rw [hd] at h
  · exact absurd h nofun
  · obtain rfl := Except.ok.inj h
    exact hw
  · exact absurd h nofun

theorem decode_eq_reservedBitSet {w : Word} : decode w = .error .reservedBitSet ↔ reservedField w ≠ 0#24 := by
  rcases decode_cases w with ⟨hr, hd⟩ | ⟨i, rfl, hd⟩ | ⟨hr, _, hd⟩
  · simp [hd, hr]
  · simp [hd]
  · simp [hd, hr]

theorem decode_eq_reservedOp {w : Word} {op : Byte} :
    decode w = .error (.reservedOp op) ↔ reservedField w = 0#24 ∧ op = opField w ∧ decodeOp op = none := by
  rcases decode_cases w with ⟨hr, hd⟩ | ⟨i, rfl, hd⟩ | ⟨hr, hop, hd⟩
  · simp [hd, hr]
  · have hfound : decodeOp (opField (encode i)) = some i := decodeOp_eq_some.2 rfl
    rw [hd]
    refine ⟨nofun, ?_⟩
    rintro ⟨_, rfl, hnone⟩
    exact absurd (hfound.symm.trans hnone) nofun
  · rw [hd]
    constructor
    · rintro ⟨⟩
      exact ⟨hr, rfl, hop⟩
    · rintro ⟨_, rfl, _⟩
      rfl

/-- Settles O1: the three answers of the decoder, each with its condition. -/
theorem decodeAcceptsExactlyTheCommandWords : Obligations.DecodeAcceptsExactlyTheCommandWords := by
  unfold Obligations.DecodeAcceptsExactlyTheCommandWords
  refine fun w => ⟨fun i => decode_eq_ok, decode_eq_reservedBitSet, fun op => ?_⟩
  rw [decode_eq_reservedOp, decodeOp_eq_none]
  rfl

/-- A word's number in the opcode table stands for the word (R52). -/
theorem ofNat_tableNumber (w : Word) : BitVec.ofNat 32 (w.toNat % 2 ^ 32) = w := by
  rw [Nat.mod_eq_of_lt w.isLt, BitVec.ofNat_toNat, BitVec.setWidth_eq]

theorem decodeTableWord_encode (i : Instr) : decodeTableWord 32 (encode i).toNat = some i := by
  rw [decodeTableWord, ofNat_tableNumber, decode_encode]

/-- Settles O2: the four words are those `encode` gives, and `OP = 0x00` is reserved. -/
theorem tableWordsDecodeToTheirCommands : Obligations.TableWordsDecodeToTheirCommands := by
  unfold Obligations.TableWordsDecodeToTheirCommands
  refine ⟨⟨decode_encode .blurFused, decode_encode .blurStaged, decode_encode .computeAtStoreAt,
    decode_encode .computeAtStoreRoot⟩, ?_, fun i => ⟨decode_encode i, decodeTableWord_encode i⟩⟩
  exact decode_eq_reservedOp.2 ⟨rfl, rfl, decodeOp_eq_none.2 (.inl rfl)⟩

/-! ## START (R60) -/

/-- A write of `CMD` in `IDLE` or `DONE` is START of the word (R18, R60). -/
theorem step_wr_cmd_of_open {s : State} {w : Word} {rest : List Event} (he : s.events = wr .cmd w :: rest)
    (ho : openState s) : step s = .next (start w (setEvents rest s)) := by
  rw [step_write he rfl, regWrite_of_open (s := setEvents rest s) ho]
  rfl

/-- START of a word that passes the checks enters `BUSY`. -/
theorem start_of_firstError_eq_none {w : Word} {s : State} (h : s.firstError w = .none) :
    start w s = { s with cmd := w, tainted := false, seq := .busy } :=
  (start_cases w s).elim And.right fun hfails => absurd h hfails.1

/-- START of a word that fails a check is the fault entry with the first error (R127). -/
theorem start_of_firstError_ne_none {w : Word} {s : State} (h : s.firstError w ≠ .none) :
    start w s = { s with cmd := w, tainted := false, err := s.firstError w, seq := .fault } :=
  (start_cases w s).elim (fun hpasses => absurd hpasses.1 h) And.right

/-- Settles O8: START's two outcomes in `IDLE` and `DONE`, and the dropped write. -/
theorem cmdWriteIsStart : Obligations.CmdWriteIsStart := by
  unfold Obligations.CmdWriteIsStart
  refine fun s w rest he => ⟨fun ho hpasses => ?_, fun ho hfails => ?_, fun hn => ?_⟩
  · rw [step_wr_cmd_of_open he ho, start_of_firstError_eq_none (s := setEvents rest s) hpasses]
    rfl
  · rw [step_wr_cmd_of_open he ho, start_of_firstError_ne_none (s := setEvents rest s) hfails]
    rfl
  · rw [step_write he rfl]
    exact regWrite_of_not_open (s := setEvents rest s) hn _ _

theorem OperandsAccepted.of_operands_eq {s t : State} (h : OperandsAccepted s) (ho : t.operands = s.operands) :
    OperandsAccepted t := by
  obtain ⟨hn, hm, hg, hinp⟩ := Operands.mk.inj ho
  exact (operandsAccepted_congr hn hm hg hinp).2 h

/-- `blur_fused` alone needs no scratch memory (R125). -/
theorem stagedOp_encode (i : Instr) : stagedOp (encode i) ↔ i ≠ .blurFused := by cases i <;> decide

/-- A command whose operands and scratch buffer are accepted passes the five checks of START (R121 to R126). -/
theorem firstError_of_accepted {i : Instr} {s : State} (hs : OperandsAccepted s) (hcap : scratchAccepted i s) :
    s.firstError (encode i) = .none := by
  obtain ⟨hprecond, hrange, halias⟩ := (operandsAccepted_iff s).1 hs
  have hoom : ¬ oomViolated s.params.scratchCap (encode i) s.rows s.cols := fun ⟨hstaged, hexceeds⟩ =>
    absurd (hcap ((stagedOp_encode i).1 hstaged)) (Nat.not_le.2 hexceeds)
  exact firstError_eq_none.2 ⟨not_illegal_encode i, hprecond, hrange, halias, hoom⟩

/-- Settles O11: START of a command that passes the checks. -/
theorem acceptedCommandEntersBusy : Obligations.AcceptedCommandEntersBusy := by
  unfold Obligations.AcceptedCommandEntersBusy
  intro i s ho hs hcap
  rw [exec_of_open ho, start_of_firstError_eq_none (firstError_of_accepted hs hcap)]

/-! ## The engine's turn and the poll (R57, R61) -/

theorem engineTurn_of_not_busy {s : State} (hb : s.seq ≠ .busy) : engineTurn s = .next s := if_neg hb

/-- Settles O34: the engine's turn outside `BUSY` is no step (R61, R161). -/
theorem engineHasNoStepOutsideBusy : Obligations.EngineHasNoStepOutsideBusy := by
  unfold Obligations.EngineHasNoStepOutsideBusy
  refine fun s hb => ⟨fun rest he => ?_, fun he => ⟨⟨he, hb⟩, ?_, ?_⟩⟩
  · rw [step_cons he]
    exact engineTurn_of_not_busy (s := setEvents rest s) hb
  · rw [step, he]
    exact engineTurn_of_not_busy hb
  · rw [endedWell, and_iff_right he]
    cases hs : s.seq <;> simp_all

theorem step_poll {s : State} {spins : Nat} {rest : List Event} (he : s.events = .poll spins :: rest) :
    step s = pollStep spins rest s := step_cons he

/-- A read of `STATUS`, as a poll makes it (R14, R57, R153). -/
theorem regRead_status (s : State) : regRead .status s = { s with
    out := s.out ++ [.reg .status (s.seq.code.setWidth 32)], unseen := if s.seq = .done then [] else s.unseen } := by
  simp [regRead_eq, readReg, statusWord]

theorem step_poll_of_done {s : State} {spins : Nat} {rest : List Event} (he : s.events = .poll spins :: rest)
    (hs : s.seq = .done) :
    step s = .next { s with events := rest, out := s.out ++ [.reg .status 2#32], unseen := [] } := by
  simp [step_poll he, pollStep, regRead_status, setEvents, hs, SeqState.code]

theorem step_poll_of_fault {s : State} {spins : Nat} {rest : List Event} (he : s.events = .poll spins :: rest)
    (hs : s.seq = .fault) : step s = .next { s with events := rest, out := s.out ++ [.reg .status 3#32] } := by
  simp [step_poll he, pollStep, regRead_status, setEvents, hs, SeqState.code]

theorem step_poll_of_idle {s : State} {spins : Nat} {rest : List Event} (he : s.events = .poll spins :: rest)
    (hs : s.seq = .idle) : step s = .next { s with out := s.out ++ [.reg .status 0#32] } := by
  simp [step_poll he, pollStep, regRead_status, setEvents, hs, SeqState.code, ← he]

theorem step_poll_of_busy {s : State} {k : Nat} {rest : List Event} (he : s.events = .poll (k + 1) :: rest)
    (hs : s.seq = .busy) :
    step s = .next { s with events := .poll k :: rest, out := s.out ++ [.reg .status 1#32] } := by
  simp [step_poll he, pollStep, regRead_status, setEvents, hs, SeqState.code]

/-- Settles O35: the poll's step in each value of `STATE`. -/
theorem pollReadsStatusUntilDoneOrFault : Obligations.PollReadsStatusUntilDoneOrFault := by
  unfold Obligations.PollReadsStatusUntilDoneOrFault
  refine fun s spins rest he => ⟨step_poll_of_done he, step_poll_of_fault he, step_poll_of_idle he, ?_⟩
  rintro hs k rfl
  exact step_poll_of_busy he hs

/-! ## A step runs the decoded command (R60, R61, R62) -/

theorem completeStep_of_decodeOp {i : Instr} {s : State} (hop : decodeOp (opField s.cmd) = some i) :
    completeStep s = exec i s := by
  rw [completeStep, hop]

theorem engineTurn_of_busy {i : Instr} {s : State} (hb : s.seq = .busy) (hop : decodeOp (opField s.cmd) = some i) :
    engineTurn s = exec i s := by
  rw [engineTurn, if_pos hb, completeStep_of_decodeOp hop]

/-- A poll with no read left in `BUSY` is the engine's turn, and stays. -/
theorem step_poll_zero_of_busy {i : Instr} {s : State} {rest : List Event} (he : s.events = .poll 0 :: rest)
    (hb : s.seq = .busy) (hop : decodeOp (opField s.cmd) = some i) : step s = exec i s := by
  have hturn : pollStep 0 rest s = completeStep (setEvents (.poll 0 :: rest) s) := by simp [pollStep, hb]
  rw [step_poll he, hturn, ← he]
  exact completeStep_of_decodeOp hop

/-- A write of a command's word in `IDLE` or `DONE` runs the command (R60). -/
theorem step_wr_cmd_encode {i : Instr} {s : State} {rest : List Event} (he : s.events = wr .cmd (encode i) :: rest)
    (ho : openState s) : step s = exec i (setEvents rest s) := by
  rw [step_wr_cmd_of_open he ho, exec_of_open (s := setEvents rest s) ho]

theorem openState_openForCommand (s : State) : openState (openForCommand s) := by
  unfold openForCommand
  split
  · exact .inl rfl
  · next hs => exact not_not.1 (mt not_openState_iff.1 hs)

theorem withFetchWord_events (s : State) (w : Word) :
    (s.withFetchWord 32 w.toNat).events = wr .cmd w :: (openForCommand s).events := by
  rw [← congrArg (wr .cmd) (ofNat_tableNumber w)]
  rfl

/-- Settles O7: the write of a command's word, the three occasions of COMPLETE, and a state `withFetchWord` prepared. -/
theorem stepRunsTheDecodedCommand : Obligations.StepRunsTheDecodedCommand := by
  unfold Obligations.StepRunsTheDecodedCommand
  refine fun s i => ⟨fun w rest ho hd he => ?_, fun hb hop => ⟨fun he => ?_, fun rest he => ?_, fun rest he => ?_⟩, ?_⟩
  · obtain rfl := decode_eq_ok.1 hd
    exact step_wr_cmd_encode he ho
  · rw [step, he]
    exact engineTurn_of_busy hb hop
  · rw [step_cons he]
    exact engineTurn_of_busy (s := setEvents rest s) hb hop
  · exact step_poll_zero_of_busy he hb hop
  · exact step_wr_cmd_encode (withFetchWord_events s (encode i)) (openState_openForCommand s)

/-! ## Whole calls (R58) -/

/-- A write of a register other than `CMD` in `IDLE` or `DONE` (R18). -/
theorem step_wr_operand {s : State} (ho : openState s) {r : Reg} (hr : r ≠ .cmd) (v : Word) (rest : List Event) :
    step (setEvents (wr r v :: rest) s) = .next (setEvents rest (writeOperand r v s)) := by
  have hopen : openState (setEvents rest s) := ho
  have hwrite : step (setEvents (wr r v :: rest) s) = regWrite r v (setEvents rest s) := by
    rw [step_write rfl rfl, ofIdx_idx]
    rfl
  rw [hwrite, regWrite_of_open hopen, if_neg hr]
  cases r <;> rfl

/-- The host's writes of operand registers, one after another. -/
theorem runSteps_wr_operands {ws : List (Reg × Word)} (hws : ∀ p ∈ ws, p.1 ≠ .cmd) {s : State} (ho : openState s)
    (rest : List Event) (k : Nat) :
    runSteps (k + ws.length) (setEvents (ws.map (fun p => wr p.1 p.2) ++ rest) s) =
      runSteps k (setEvents rest (ws.foldl (fun u p => writeOperand p.1 p.2 u) s)) := by
  induction ws generalizing s with
  | nil => rfl
  | cons p ws ih =>
    obtain ⟨hp, hws⟩ := List.forall_mem_cons.1 hws
    have hopen : openState (writeOperand p.1 p.2 s) := by rwa [openState, writeOperand_seq]
    exact (runSteps_succ (step_wr_operand ho hp p.2 _)).trans (ih hws hopen)

/-- The first five steps of a call form in `IDLE` or `DONE`: the operands are written, and START is taken. -/
theorem runSteps_callForm {i : Instr} {s : State} {n m g inp : Word} {spins : Nat} {rest : List Event}
    (ho : openState s) (he : s.events = callForm i n m g inp spins ++ rest) (k : Nat) :
    runSteps (k + 5) s =
      runSteps k (start (encode i) { s with n := n, m := m, g := g, inp := inp, events := .poll spins :: rest }) := by
  have hs : setEvents (callForm i n m g inp spins ++ rest) s = s := by rw [← he]; rfl
  calc runSteps (k + 5) s
      = runSteps (k + 5) (setEvents (callForm i n m g inp spins ++ rest) s) := by rw [hs]
    _ = runSteps (k + 1) { s with
          n := n, m := m, g := g, inp := inp, events := wr .cmd (encode i) :: .poll spins :: rest } :=
        runSteps_wr_operands (ws := [(.n, n), (.m, m), (.g, g), (.inp, inp)]) (by simp) ho _ _
    _ = _ := runSteps_succ (step_wr_cmd_of_open rfl ho)

/-- The reads of a poll that find `BUSY`. -/
theorem runSteps_poll_busy {spins : Nat} {s : State} {rest : List Event} (hb : s.seq = .busy)
    (he : s.events = .poll spins :: rest) (k : Nat) :
    runSteps (k + spins) s = runSteps k { s with
      events := .poll 0 :: rest, out := s.out ++ List.replicate spins (.reg .status 1#32) } := by
  induction spins generalizing s with
  | zero => simp [← he]
  | succ spins ih =>
    rw [← Nat.add_assoc, runSteps_succ (step_poll_of_busy he hb)]
    refine (ih (s := { s with events := .poll spins :: rest, out := s.out ++ [.reg .status 1#32] }) hb rfl).trans ?_
    simp [List.replicate_succ]

/-- A poll with no read left in `BUSY`, hands off: the command completes, and the next read shows `DONE` (R61). -/
theorem runSteps_poll_zero {i : Instr} {s : State} {rest : List Event} (hb : s.seq = .busy) (ht : s.tainted = false)
    (hc : s.cmd = encode i) (he : s.events = .poll 0 :: rest) (hs : OperandsAccepted s) (hcap : scratchAccepted i s) :
    ∃ mem, runSteps 2 s = .next { s with
        seq := .done, scr := [], unseen := [], mem := mem, events := rest, out := s.out ++ [.reg .status 2#32] } ∧
      WritesExactly s (commandByte i s) mem := by
  obtain ⟨mem, hexec, hw⟩ := exec_completes hb ht hs hcap
  have hop : decodeOp (opField s.cmd) = some i := decodeOp_eq_some.2 (congrArg opField hc)
  have hcomplete : step s = .next (finish (setMem mem s)) := (step_poll_zero_of_busy he hb hop).trans hexec
  refine ⟨mem, ?_, hw⟩
  rw [runSteps_succ hcomplete, runSteps_succ (step_poll_of_done (s := finish (setMem mem s)) he rfl)]
  simp [finish, setMem, ht]

/-- Settles O49: the call's writes and START, the reads that find `BUSY`, and the end of its poll. -/
theorem callReturnsWithTheResult : Obligations.CallReturnsWithTheResult := by
  unfold Obligations.CallReturnsWithTheResult
  intro i s n m g inp spins rest ho he hs hcap
  have hpasses := firstError_of_accepted hs hcap
  rw [show spins + 7 = 2 + spins + 5 by omega, runSteps_callForm ho he,
    start_of_firstError_eq_none
      (s := { s with n := n, m := m, g := g, inp := inp, events := .poll spins :: rest }) hpasses,
    runSteps_poll_busy rfl rfl]
  exact runSteps_poll_zero rfl rfl rfl rfl (hs.of_operands_eq rfl) hcap

/-- Settles O50: the call's START raises the error, and the poll's first read shows `FAULT`. -/
theorem failedCallEndsInFault : Obligations.FailedCallEndsInFault := by
  unfold Obligations.FailedCallEndsInFault
  intro i s n m g inp spins rest e ho he hne herr
  have hfails : State.firstError { s with n := n, m := m, g := g, inp := inp } (encode i) ≠ .none := herr ▸ hne
  rw [runSteps_callForm ho he 1, start_of_firstError_ne_none
      (s := { s with n := n, m := m, g := g, inp := inp, events := .poll spins :: rest }) hfails,
    runSteps_succ (step_poll_of_fault rfl rfl), ← herr]
  rfl

end Sys2Proof.Machine
end

section
/-! PROOFS. Rounding to nearest even in a format, over the rationals, and the primitives of the datapath: `fp`,
`fp_div`, `fp_add` and `trunc_u8` (R73 to R81). -/

namespace Sys2Proof.Machine

/-! ## Rounding to an integer -/

/-- Only a tie leaves the exact quotient one half away, and a tie goes to the even integer. -/
theorem divNearestEven_even_of_tie (a : Nat) {b : Nat} (hb : 0 < b)
    (htie : |(divNearestEven a b : ℚ) - (a : ℚ) / b| = 1 / 2) : divNearestEven a b % 2 = 0 := by
  have hdm : b * (a / b) + a % b = a := Nat.div_add_mod a b
  have hlt : a % b < b := Nat.mod_lt a hb
  have hbq : (0 : ℚ) < b := by exact_mod_cast hb
  have half_away : 2 * (b * divNearestEven a b) = 2 * a + b ∨ 2 * (b * divNearestEven a b) + b = 2 * a := by
    rcases abs_eq (by norm_num) |>.1 htie with h | h <;> field_simp at h
    · left; qify; linarith
    · right; qify; linarith
  unfold divNearestEven at half_away ⊢
  simp only at half_away ⊢
  split <;> rename_i hround
  · rw [if_pos hround, Nat.mul_add] at half_away; omega
  · rw [if_neg hround] at half_away
    split <;> rename_i hodd
    · omega
    · rw [if_neg hodd] at half_away; omega

/-- `d` is `t` rounded to an integer: none is nearer, and where another is as near, `d` is even. -/
def IsNearestEvenNat (t : ℚ) (d : Nat) : Prop :=
  ∀ m : Nat, |(d : ℚ) - t| ≤ |(m : ℚ) - t| ∧ (|(d : ℚ) - t| = |(m : ℚ) - t| → m = d ∨ d % 2 = 0)

theorem divNearestEven_isNearestEvenNat (a : Nat) {b : Nat} (hb : 0 < b) :
    IsNearestEvenNat ((a : ℚ) / b) (divNearestEven a b) := by
  intro m
  have hnear := divNearestEven_near a hb
  have htie := divNearestEven_even_of_tie a hb
  rcases eq_or_ne m (divNearestEven a b) with rfl | hne
  · exact ⟨le_rfl, fun _ => .inl rfl⟩
  · have hgap : (1 : ℚ) ≤ |(m : ℚ) - divNearestEven a b| := by
      exact_mod_cast Int.one_le_abs (sub_ne_zero.2 (Int.ofNat_inj.not.2 hne))
    have htri := abs_sub_le (m : ℚ) ((a : ℚ) / b) (divNearestEven a b)
    rw [abs_sub_comm ((a : ℚ) / b)] at htri
    exact ⟨by linarith, fun heq => .inr (htie (by linarith))⟩

/-! ## The numbers of a format -/

theorem two_pow_precision (fmt : FpFormat) : 2 ^ precision fmt = 2 * 2 ^ (precision fmt - 1) := by
  cases fmt <;> rfl

theorem two_le_precision (fmt : FpFormat) : 2 ≤ precision fmt := by cases fmt <;> decide

@[simp] theorem fpVal_zero : fpVal { sig := 0, exp := 0 } = 0 := by simp [fpVal]

/-- Of two full significands the one with the greater exponent stands for the greater number. -/
theorem fpVal_lt_of_exp_lt {fmt : FpFormat} {x y : Fp} (hx : x.sig < 2 ^ precision fmt)
    (hy : 2 ^ (precision fmt - 1) ≤ y.sig) (he : x.exp < y.exp) : fpVal x < fpVal y := by
  have hpow : (2 : ℚ) ^ precision fmt = 2 * 2 ^ (precision fmt - 1) := by exact_mod_cast two_pow_precision fmt
  have hx : (x.sig : ℚ) < 2 ^ precision fmt := by exact_mod_cast hx
  have hy : (2 : ℚ) ^ (precision fmt - 1) ≤ y.sig := by exact_mod_cast hy
  calc fpVal x < 2 ^ precision fmt * 2 ^ x.exp := mul_lt_mul_of_pos_right hx (by positivity)
    _ = 2 ^ (precision fmt - 1) * 2 ^ (x.exp + 1) := by rw [hpow, zpow_add_one₀ (by norm_num)]; ring
    _ ≤ 2 ^ (precision fmt - 1) * 2 ^ y.exp :=
        mul_le_mul_of_nonneg_left (zpow_le_zpow_right₀ (by norm_num) he) (by positivity)
    _ ≤ fpVal y := mul_le_mul_of_nonneg_right hy (by positivity)

theorem fpVal_pos {fmt : FpFormat} {x : Fp} (hx : 2 ^ (precision fmt - 1) ≤ x.sig) : 0 < fpVal x :=
  mul_pos (Nat.cast_pos.2 ((Nat.two_pow_pos _).trans_le hx)) (by positivity)

/-- A number has one representation in a format. -/
theorem FpInFormat.eq_of_fpVal_eq {fmt : FpFormat} {x y : Fp} (hx : FpInFormat fmt x) (hy : FpInFormat fmt y)
    (h : fpVal x = fpVal y) : x = y := by
  rcases hx with rfl | ⟨hxlo, hxhi⟩ <;> rcases hy with rfl | ⟨hylo, hyhi⟩
  · rfl
  · exact absurd h (by rw [fpVal_zero]; exact (fpVal_pos hylo).ne)
  · exact absurd h (by rw [fpVal_zero]; exact (fpVal_pos hxlo).ne')
  · have hexp : x.exp = y.exp := by
      rcases lt_trichotomy x.exp y.exp with hlt | heq | hgt
      · exact absurd h (fpVal_lt_of_exp_lt hxhi hylo hlt).ne
      · exact heq
      · exact absurd h (fpVal_lt_of_exp_lt hyhi hxlo hgt).ne'
    have hsig : x.sig = y.sig := by
      unfold fpVal at h
      rw [hexp] at h
      exact_mod_cast mul_right_cancel₀ (by positivity) h
    cases x; cases y; simp_all

/-- Seen from an exponent `e`: a number of the format is a multiple of `2^e`, or lies below the least full
significand of that exponent. -/
theorem FpInFormat.multiple_or_lt {fmt : FpFormat} {y : Fp} (hy : FpInFormat fmt y) (e : Int) :
    (∃ m : Nat, fpVal y = m * 2 ^ e) ∨ fpVal y < fpVal { sig := 2 ^ (precision fmt - 1), exp := e } := by
  rcases hy with rfl | ⟨_, hhi⟩
  · exact .inl ⟨0, by simp⟩
  · rcases le_or_gt e y.exp with hle | hlt
    · obtain ⟨j, hj⟩ := Int.le.dest hle
      refine .inl ⟨y.sig * 2 ^ j, ?_⟩
      rw [fpVal, ← hj, zpow_add₀ (by norm_num), zpow_natCast]
      push_cast
      ring
    · exact .inr (fpVal_lt_of_exp_lt hhi le_rfl hlt)

/-- Every natural below `2^p`, scaled by a power of two, is a number of the format. -/
theorem exists_fpInFormat {fmt : FpFormat} {n : Nat} (hn : n < 2 ^ precision fmt) (j : Int) :
    ∃ y, FpInFormat fmt y ∧ fpVal y = n * 2 ^ j := by
  rcases Nat.eq_zero_or_pos n with rfl | hpos
  · exact ⟨_, .inl rfl, by simp⟩
  · have hlog : Nat.log2 n < precision fmt := (Nat.log2_lt hpos.ne').2 hn
    obtain ⟨k, hk⟩ : ∃ k, precision fmt = Nat.log2 n + 1 + k := ⟨_, (Nat.add_sub_cancel' hlog).symm⟩
    refine ⟨{ sig := n * 2 ^ k, exp := j - k }, .inr ⟨?_, ?_⟩, ?_⟩
    · rw [hk, Nat.add_right_comm, Nat.add_sub_cancel, pow_add]
      exact Nat.mul_le_mul_right _ (Nat.log2_self_le hpos.ne')
    · rw [hk, pow_add]
      exact Nat.mul_lt_mul_of_pos_right Nat.lt_log2_self (Nat.two_pow_pos k)
    · rw [fpVal, zpow_sub₀ (by norm_num), zpow_natCast]
      push_cast
      field_simp

theorem lt_two_pow_precision (fmt : FpFormat) {n : Nat} (hn : n < 2 ^ 24) : n < 2 ^ precision fmt :=
  hn.trans_le (Nat.pow_le_pow_right (by decide) (by cases fmt <;> decide))

theorem exists_fpInFormat_natCast (fmt : FpFormat) {n : Nat} (hn : n < 2 ^ 24) :
    ∃ y, FpInFormat fmt y ∧ fpVal y = n := by
  simpa using exists_fpInFormat (lt_two_pow_precision fmt hn) 0

/-! ## Rounding to a format -/

/-- The value of a rounded quotient: the nearest multiple of its last place, whether or not the significand carries. -/
theorem fpVal_roundNearestEven {p : Nat} (hp : 1 ≤ p) (num den : Nat) :
    fpVal (roundNearestEven p num den) =
      divNearestEven (num * 2 ^ (-lastBitExp p num den).toNat) (den * 2 ^ (lastBitExp p num den).toNat) *
        2 ^ lastBitExp p num den := by
  unfold roundNearestEven
  split
  · rename_i hzero
    simp [hzero, divNearestEven]
  · simp only
    split
    · rename_i hcarry
      obtain ⟨k, rfl⟩ : ∃ k, p = k + 1 := ⟨p - 1, by omega⟩
      rw [hcarry, fpVal, zpow_add_one₀ (by norm_num), Nat.add_sub_cancel, pow_succ]
      push_cast
      ring
    · rfl

/-- The significand of a rounded quotient is even where the rounded integer is. -/
theorem roundNearestEven_sig_even {p num den : Nat} (hp : 2 ≤ p)
    (h : divNearestEven (num * 2 ^ (-lastBitExp p num den).toNat) (den * 2 ^ (lastBitExp p num den).toNat) % 2 = 0) :
    (roundNearestEven p num den).sig % 2 = 0 := by
  unfold roundNearestEven
  split
  · rfl
  · simp only
    split
    · obtain ⟨k, rfl⟩ : ∃ k, p = k + 2 := ⟨p - 2, by omega⟩
      exact Nat.mod_eq_zero_of_dvd (dvd_pow_self 2 (Nat.succ_ne_zero k))
    · exact h

theorem roundNearestEven_inFormat (fmt : FpFormat) (num : Nat) {den : Nat} (hd : 0 < den) :
    FpInFormat fmt (roundNearestEven (precision fmt) num den) := by
  rcases Nat.eq_zero_or_pos num with rfl | hn
  · exact .inl rfl
  · exact .inr (roundNearestEven_near (one_le_two.trans (two_le_precision fmt)) hn hd).1

@[simp] theorem roundNearestEven_zero (p den : Nat) : roundNearestEven p 0 den = { sig := 0, exp := 0 } := rfl

theorem isNearestEven_zero (fmt : FpFormat) : IsNearestEven fmt 0 { sig := 0, exp := 0 } :=
  ⟨.inl rfl, fun y _ => ⟨by simp, fun _ => .inr rfl⟩⟩

/-- Rounding the significand to an integer rounds the number to the format. A number of the format that is a multiple of
the last place competes as an integer does; one below the least full significand of that place is further away than
that significand is. -/
theorem isNearestEven_of_significand {fmt : FpFormat} {x : Fp} {t : ℚ} {d : Nat} {e : Int} (hx : FpInFormat fmt x)
    (hval : fpVal x = d * 2 ^ e) (heven : d % 2 = 0 → x.sig % 2 = 0) (hfull : 2 ^ (precision fmt - 1) ≤ t)
    (hd : IsNearestEvenNat t d) : IsNearestEven fmt (t * 2 ^ e) x := by
  refine ⟨hx, fun y hy => ?_⟩
  have hpos : (0 : ℚ) < 2 ^ e := by positivity
  have hdist : ∀ m : Nat, |(m : ℚ) * 2 ^ e - t * 2 ^ e| = |(m : ℚ) - t| * 2 ^ e := fun m => by
    rw [← sub_mul, abs_mul, abs_of_pos hpos]
  rcases hy.multiple_or_lt e with ⟨m, hm⟩ | hlt
  · obtain ⟨hle, htie⟩ := hd m
    rw [hval, hm, hdist, hdist, mul_le_mul_iff_left₀ hpos, mul_left_inj' hpos.ne']
    refine ⟨hle, fun heq => (htie heq).imp (fun hmd => ?_) heven⟩
    exact hy.eq_of_fpVal_eq hx (by rw [hval, hm, hmd])
  · have hcloser : |fpVal x - t * 2 ^ e| < |fpVal y - t * 2 ^ e| := by
      have hfloor : (2 : ℚ) ^ (precision fmt - 1) * 2 ^ e ≤ t * 2 ^ e := mul_le_mul_of_nonneg_right hfull hpos.le
      have hlt : fpVal y < 2 ^ (precision fmt - 1) * 2 ^ e := by simpa [fpVal] using hlt
      calc |fpVal x - t * 2 ^ e|
          ≤ |((2 ^ (precision fmt - 1) : Nat) : ℚ) * 2 ^ e - t * 2 ^ e| := by
            rw [hval, hdist, hdist]
            exact mul_le_mul_of_nonneg_right (hd _).1 hpos.le
        _ = t * 2 ^ e - 2 ^ (precision fmt - 1) * 2 ^ e := by
            rw [Nat.cast_pow, Nat.cast_ofNat, abs_of_nonpos (by linarith), neg_sub]
        _ < t * 2 ^ e - fpVal y := by linarith
        _ ≤ |fpVal y - t * 2 ^ e| := by rw [abs_sub_comm]; exact le_abs_self _
    exact ⟨hcloser.le, fun heq => absurd heq hcloser.ne⟩

/-- `roundNearestEven` rounds to nearest, ties to even (R73). -/
theorem roundNearestEven_isNearestEven (fmt : FpFormat) (num : Nat) {den : Nat} (hd : 0 < den) :
    IsNearestEven fmt ((num : ℚ) / den) (roundNearestEven (precision fmt) num den) := by
  have hp := two_le_precision fmt
  rcases Nat.eq_zero_or_pos num with rfl | hn
  · simpa using isNearestEven_zero fmt
  · have hscaled : (num : ℚ) / den =
        ((num * 2 ^ (-lastBitExp (precision fmt) num den).toNat : Nat) : ℚ) /
          ((den * 2 ^ (lastBitExp (precision fmt) num den).toNat : Nat) : ℚ) *
            2 ^ lastBitExp (precision fmt) num den := by
      rw [two_zpow_eq_div (lastBitExp _ _ _)]
      push_cast
      field_simp
    have hlow := (lastBitExp_bounds (p := precision fmt) (by omega) hn hd).1
    rw [hscaled] at hlow ⊢
    exact isNearestEven_of_significand (roundNearestEven_inFormat fmt num hd)
      (fpVal_roundNearestEven (by omega) num den) (roundNearestEven_sig_even hp)
      (le_of_mul_le_mul_right hlow (by positivity))
      (divNearestEven_isNearestEvenNat _ (Nat.mul_pos hd (Nat.two_pow_pos _)))

namespace IsNearestEven

variable {fmt : FpFormat} {q : ℚ} {x y : Fp}

/-- A number of the format rounds to itself (R80). -/
theorem fpVal_eq (h : IsNearestEven fmt q x) (hy : FpInFormat fmt y) (hq : fpVal y = q) : fpVal x = q := by
  have hle := (h.2 y hy).1
  rw [hq, sub_self, abs_zero] at hle
  exact sub_eq_zero.1 (abs_nonpos_iff.1 hle)

/-- Rounding does not cross a number of the format (R80): from below. -/
theorem fpVal_le (h : IsNearestEven fmt q x) (hy : FpInFormat fmt y) (hq : q ≤ fpVal y) : fpVal x ≤ fpVal y := by
  by_contra hlt
  have hle := (h.2 y hy).1
  rw [abs_of_nonneg (by linarith), abs_of_nonneg (by linarith)] at hle
  linarith

/-- Rounding does not cross a number of the format (R80): from above. -/
theorem le_fpVal (h : IsNearestEven fmt q x) (hy : FpInFormat fmt y) (hq : fpVal y ≤ q) : fpVal y ≤ fpVal x := by
  by_contra hlt
  have hle := (h.2 y hy).1
  rw [abs_of_nonpos (by linarith), abs_of_nonpos (by linarith)] at hle
  linarith

end IsNearestEven

/-- A rounded number is at most a natural that bounds the exact one. -/
theorem IsNearestEven.fpVal_le_natCast {fmt : FpFormat} {q : ℚ} {x : Fp} (h : IsNearestEven fmt q x) {n : Nat}
    (hn : n < 2 ^ 24) (hq : q ≤ n) : fpVal x ≤ n := by
  obtain ⟨y, hy, hval⟩ := exists_fpInFormat_natCast fmt hn
  exact hval ▸ h.fpVal_le hy (hval ▸ hq)

theorem IsNearestEven.natCast_le_fpVal {fmt : FpFormat} {q : ℚ} {x : Fp} (h : IsNearestEven fmt q x) {n : Nat}
    (hn : n < 2 ^ 24) (hq : n ≤ q) : n ≤ fpVal x := by
  obtain ⟨y, hy, hval⟩ := exists_fpInFormat_natCast fmt hn
  exact hval ▸ h.le_fpVal hy (hval ▸ hq)

/-! ## The primitives -/

theorem fp_isNearestEven (fmt : FpFormat) (k : Nat) : IsNearestEven fmt k (fp fmt k) := by
  simpa [fp] using roundNearestEven_isNearestEven fmt k Nat.one_pos

/-- `fp` is exact (R74). -/
theorem fpVal_fp (fmt : FpFormat) {k : Nat} (hk : k < 2 ^ 24) : fpVal (fp fmt k) = k := by
  obtain ⟨y, hy, hval⟩ := exists_fpInFormat_natCast fmt hk
  exact (fp_isNearestEven fmt k).fpVal_eq hy hval

@[simp] theorem fpVal_fpFive (fmt : FpFormat) : fpVal (fpFive fmt) = 5 := fpVal_fp fmt (by decide)

/-- `fp_add` rounds the real sum (R77). -/
theorem fpAdd_isNearestEven (fmt : FpFormat) (a b : Fp) :
    IsNearestEven fmt (fpVal a + fpVal b) (fpAdd fmt a b) := by
  have ha : (fpDen a : ℚ) ≠ 0 := Nat.cast_ne_zero.2 (fpDen_pos a).ne'
  have hb : (fpDen b : ℚ) ≠ 0 := Nat.cast_ne_zero.2 (fpDen_pos b).ne'
  have hsum : fpVal a + fpVal b =
      ((fpNum a * fpDen b + fpNum b * fpDen a : Nat) : ℚ) / ((fpDen a * fpDen b : Nat) : ℚ) := by
    rw [fpVal_eq_div, fpVal_eq_div]
    push_cast
    field_simp
  rw [hsum]
  exact roundNearestEven_isNearestEven fmt _ (Nat.mul_pos (fpDen_pos a) (fpDen_pos b))

/-- `fp_div` rounds the real quotient by a divisor that is not zero (R76). -/
theorem fpDiv_isNearestEven (fmt : FpFormat) (a : Fp) {b : Fp} (hb : fpVal b ≠ 0) :
    IsNearestEven fmt (fpVal a / fpVal b) (fpDiv fmt a b) := by
  have hnum : fpNum b ≠ 0 := fun h => hb (by rw [fpVal_eq_div, h]; simp)
  have hquot : fpVal a / fpVal b =
      ((fpNum a * fpDen b : Nat) : ℚ) / ((fpDen a * fpNum b : Nat) : ℚ) := by
    rw [fpVal_eq_div, fpVal_eq_div]
    push_cast
    exact div_div_div_eq _ _ _ _
  rw [hquot]
  exact roundNearestEven_isNearestEven fmt _ (Nat.mul_pos (fpDen_pos a) (Nat.pos_of_ne_zero hnum))

theorem fpDiv_five_isNearestEven (fmt : FpFormat) (a : Fp) :
    IsNearestEven fmt (fpVal a / 5) (fpDiv fmt a (fpFive fmt)) := by
  simpa using fpDiv_isNearestEven fmt a (b := fpFive fmt) (by simp)

/-- `trunc_u8` of a number that is not negative: its floor, or 255 where that does not fit (R79). -/
theorem truncU8_finite_false (x : Fp) :
    truncU8 (.finite false x) = if fpVal x < 256 then BitVec.ofNat 8 ⌊fpVal x⌋₊ else 255#8 := by
  have hfloor : ⌊fpVal x⌋₊ = fpNum x / fpDen x := by rw [fpVal_eq_div, Nat.floor_div_eq_div]
  have hbound : fpNum x / fpDen x < 256 ↔ fpVal x < 256 := by
    rw [← hfloor, Nat.floor_lt (fpVal_nonneg x), Nat.cast_ofNat]
  simp only [truncU8, hbound, hfloor]

/-- A number of `[0, 256)` truncates to its floor (R79). -/
theorem truncU8_toNat {x : Fp} (hx : fpVal x < 256) : (truncU8 (.finite false x)).toNat = ⌊fpVal x⌋₊ := by
  have hfits : ⌊fpVal x⌋₊ < 2 ^ 8 := (Nat.floor_lt (fpVal_nonneg x)).2 (by exact_mod_cast hx)
  rw [truncU8_finite_false, if_pos hx, BitVec.toNat_ofNat, Nat.mod_eq_of_lt hfits]

/-- Settles O39: every integer below `2^24` is a number of both formats, so rounding keeps it. -/
theorem integersAreExact : Obligations.IntegersAreExact := by
  unfold Obligations.IntegersAreExact
  exact ⟨fun fmt k hk => ⟨(fp_isNearestEven fmt k).1, fpVal_fp fmt (by omega)⟩,
    fpVal_fpFive _, by decide +kernel, fpVal_fpFive _, by decide +kernel⟩

/-- Settles O40. -/
theorem divisionByFiveRoundsToNearestEven : Obligations.DivisionByFiveRoundsToNearestEven :=
  fpDiv_five_isNearestEven

/-- Settles O41. -/
theorem additionRoundsToNearestEven : Obligations.AdditionRoundsToNearestEven :=
  fpAdd_isNearestEven

/-- Settles O42: `truncU8_toNat` below 256, saturation from there on; a zero of either sign has floor zero. -/
theorem truncationDiscardsTheFraction : Obligations.TruncationDiscardsTheFraction := by
  unfold Obligations.TruncationDiscardsTheFraction
  refine ⟨fun negative x => ⟨fun hzero => ?_, fun _ => rfl, truncU8_toNat, fun hlarge => ?_⟩, rfl, rfl, rfl⟩
  · cases negative
    case false => simp [truncU8_finite_false, hzero]
    case true => rfl
  · rw [truncU8_finite_false, if_neg hlarge.not_gt]

/-! ## The range of the fused path, and the mean of five samples -/

/-- A quotient by five stays below an integer when the dividend stays below five times it (R80). -/
theorem fpVal_fpDiv_five_le {fmt : FpFormat} {a : Fp} {n : Nat} (hn : n < 2 ^ 24) (ha : fpVal a ≤ 5 * n) :
    fpVal (fpDiv fmt a (fpFive fmt)) ≤ n :=
  (fpDiv_five_isNearestEven fmt a).fpVal_le_natCast hn (by linarith)

/-- A sum stays below the sum of two integers that bound its terms (R80). -/
theorem fpVal_fpAdd_le {fmt : FpFormat} {a b : Fp} {m n : Nat} (hmn : m + n < 2 ^ 24) (ha : fpVal a ≤ m)
    (hb : fpVal b ≤ n) : fpVal (fpAdd fmt a b) ≤ (m + n : Nat) :=
  (fpAdd_isNearestEven fmt a b).fpVal_le_natCast hmn (by push_cast; linarith)

theorem rowMean_isNearestEven (fmt : FpFormat) {k : Nat} (hk : k ≤ 1275) :
    IsNearestEven fmt (k / 5) (rowMean fmt k) := by
  have h := fpDiv_five_isNearestEven fmt (fp fmt k)
  rwa [fpVal_fp fmt (by omega)] at h

theorem fpVal_rowMean_le (fmt : FpFormat) {k : Nat} (hk : k ≤ 1275) : fpVal (rowMean fmt k) ≤ (255 : Nat) := by
  refine (rowMean_isNearestEven fmt hk).fpVal_le_natCast (by decide) ?_
  have hk : (k : ℚ) ≤ 1275 := by exact_mod_cast hk
  push_cast
  linarith

/-- Settles O43: each partial sum adds one row mean, of at most 255, to the one before. -/
theorem fusedPathStaysInRange : Obligations.FusedPathStaysInRange := by
  unfold Obligations.FusedPathStaysInRange
  intro fmt s0 s1 s2 s3 s4 h0 h1 h2 h3 h4 r acc1 acc2 acc3
  have hr0 : fpVal (r s0) ≤ (255 : Nat) := fpVal_rowMean_le fmt h0
  have hacc1 : fpVal acc1 ≤ (510 : Nat) := fpVal_fpAdd_le (by decide) hr0 (fpVal_rowMean_le fmt h1)
  have hacc2 : fpVal acc2 ≤ (765 : Nat) := fpVal_fpAdd_le (by decide) hacc1 (fpVal_rowMean_le fmt h2)
  have hacc3 : fpVal acc3 ≤ (1020 : Nat) := fpVal_fpAdd_le (by decide) hacc2 (fpVal_rowMean_le fmt h3)
  have hacc4 : fpVal (fusedAcc fmt s0 s1 s2 s3 s4) ≤ (1275 : Nat) :=
    fpVal_fpAdd_le (by decide) hacc3 (fpVal_rowMean_le fmt h4)
  have hquot : fpVal (fpDiv fmt (fusedAcc fmt s0 s1 s2 s3 s4) (fpFive fmt)) ≤ (255 : Nat) :=
    fpVal_fpDiv_five_le (by decide) (hacc4.trans (by norm_num))
  simp only [Nat.cast_ofNat] at hr0 hacc1 hacc2 hacc3 hacc4 hquot
  exact ⟨hr0, hacc1, hacc2, hacc3, hacc4, hquot⟩

/-- The exact mean is an integer or at least `1/5` below the next one, so that an eighth below the next one, which
both formats hold, bounds its rounding (R81). -/
theorem floor_rowMean (fmt : FpFormat) {k : Nat} (hk : k ≤ 1275) : ⌊fpVal (rowMean fmt k)⌋₊ = k / 5 := by
  have hrow := rowMean_isNearestEven fmt hk
  have hdm : k = 5 * (k / 5) + k % 5 := (Nat.div_add_mod k 5).symm
  have hmod : k % 5 ≤ 4 := Nat.le_of_lt_succ (Nat.mod_lt k (by decide))
  generalize k / 5 = c at hdm ⊢
  generalize k % 5 = t at hdm hmod
  have hk' : (k : ℚ) = 5 * c + t := by exact_mod_cast hdm
  have ht : (t : ℚ) ≤ 4 := by exact_mod_cast hmod
  have ht0 : (0 : ℚ) ≤ t := t.cast_nonneg
  have hbelow : (c : ℚ) ≤ fpVal (rowMean fmt k) := hrow.natCast_le_fpVal (by omega) (by linarith)
  obtain ⟨y, hy, hval⟩ := exists_fpInFormat (lt_two_pow_precision fmt (show 8 * c + 7 < 2 ^ 24 by omega)) (-3)
  have hval : fpVal y = c + 7 / 8 := by rw [hval]; push_cast; norm_num; ring
  have habove : fpVal (rowMean fmt k) ≤ c + 7 / 8 := hval ▸ hrow.fpVal_le hy (by linarith)
  rw [Nat.floor_eq_iff (fpVal_nonneg _)]
  exact ⟨hbelow, by linarith⟩

/-- Settles O44: a row mean truncates to its floor, `k / 5`, which fits a byte. -/
theorem truncatedMeanIsIntegerDivision : Obligations.TruncatedMeanIsIntegerDivision := by
  unfold Obligations.TruncatedMeanIsIntegerDivision
  intro fmt k hk
  have havg : (avg5 k).toNat = k / 5 := by
    rw [avg5, BitVec.toNat_ofNat, Nat.mod_eq_of_lt (by omega)]
  have hsmall : fpVal (rowMean fmt k) < 256 := (fpVal_rowMean_le fmt hk).trans_lt (by norm_num)
  refine ⟨BitVec.eq_of_toNat_eq ?_, havg⟩
  calc (truncU8 (.finite false (rowMean fmt k))).toNat
      = ⌊fpVal (rowMean fmt k)⌋₊ := truncU8_toNat hsmall
    _ = k / 5 := floor_rowMean fmt hk
    _ = (avg5 k).toNat := havg.symm

end Sys2Proof.Machine
end

section
/-! PROOFS. The fused command: its COMPLETE (R90, R92), and how far `FusedPx` is from the mean (R93, R94). -/

namespace Sys2Proof.Machine

/-! ## COMPLETE -/

/-- Settles O17: the end of COMPLETE, where the mark is already clear, after the work of `exec_completes`. -/
theorem fusedCompletes : Obligations.FusedCompletes := by
  unfold Obligations.FusedCompletes
  intro s hb ht hs
  obtain ⟨mem, hexec, hw⟩ := exec_completes (i := .blurFused) hb ht hs fun hne => absurd rfl hne
  refine ⟨mem, ?_, hw⟩
  rw [hexec, ht]
  rfl

/-! ## Row sums that are multiples of five (R93 (c)) -/

/-- A number of the format that stands for an integer is that integer's `fp`. -/
theorem IsNearestEven.eq_fp {fmt : FpFormat} {k : Nat} {x : Fp} (h : IsNearestEven fmt k x) (hk : k < 2 ^ 24) :
    x = fp fmt k := by
  have hfp := (fp_isNearestEven fmt k).1
  have hval := fpVal_fp fmt hk
  exact h.1.eq_of_fpVal_eq hfp ((h.fpVal_eq hfp hval).trans hval.symm)

theorem rowMean_five_mul (fmt : FpFormat) {r : Nat} (hr : r ≤ 255) : rowMean fmt (5 * r) = fp fmt r := by
  have h := rowMean_isNearestEven fmt (k := 5 * r) (by omega)
  rw [Nat.cast_mul, Nat.cast_ofNat, mul_div_cancel_left₀ _ (by norm_num)] at h
  exact h.eq_fp (by omega)

theorem fpAdd_fp (fmt : FpFormat) {a b : Nat} (h : a + b < 2 ^ 24) :
    fpAdd fmt (fp fmt a) (fp fmt b) = fp fmt (a + b) := by
  have hsum := fpAdd_isNearestEven fmt (fp fmt a) (fp fmt b)
  rw [fpVal_fp fmt (by omega), fpVal_fp fmt (by omega), ← Nat.cast_add] at hsum
  exact hsum.eq_fp h

/-- The accumulator is four additions of five row means (R91). -/
theorem fusedAcc_eq (fmt : FpFormat) (s0 s1 s2 s3 s4 : Nat) :
    fusedAcc fmt s0 s1 s2 s3 s4 = fpAdd fmt (fpAdd fmt (fpAdd fmt (fpAdd fmt (rowMean fmt s0) (rowMean fmt s1))
      (rowMean fmt s2)) (rowMean fmt s3)) (rowMean fmt s4) := rfl

/-- Settles O46: row means and partial sums are integers, which `fp` holds exactly; what is left is the truncated mean of
the five (R81). -/
theorem fusedSampleIsExactOnMultiplesOfFive : Obligations.FusedSampleIsExactOnMultiplesOfFive := by
  unfold Obligations.FusedSampleIsExactOnMultiplesOfFive
  intro fmt r0 r1 r2 r3 r4 h0 h1 h2 h3 h4
  have hacc : fusedAcc fmt (5 * r0) (5 * r1) (5 * r2) (5 * r3) (5 * r4) = fp fmt (r0 + r1 + r2 + r3 + r4) := by
    rw [fusedAcc_eq, rowMean_five_mul fmt h0, rowMean_five_mul fmt h1, rowMean_five_mul fmt h2,
      rowMean_five_mul fmt h3, rowMean_five_mul fmt h4, fpAdd_fp fmt (by omega), fpAdd_fp fmt (by omega),
      fpAdd_fp fmt (by omega), fpAdd_fp fmt (by omega)]
  obtain ⟨htrunc, havg⟩ := truncatedMeanIsIntegerDivision fmt (r0 + r1 + r2 + r3 + r4) (by omega)
  constructor
  · rw [hacc, fpVal_fp fmt (by omega)]
    push_cast
    rfl
  · rw [fusedPx, hacc, htrunc, havg]

/-! ## The error of the fused path (R93 (a), (b)) -/

/-- One rounding of a number below `2^11` moves it by at most `2^-13`: both formats hold every multiple of `2^-13` there,
so the one next below is a candidate. -/
theorem IsNearestEven.abs_sub_le {fmt : FpFormat} {q : ℚ} {x : Fp} (h : IsNearestEven fmt q x) (h0 : 0 ≤ q)
    (hq : q < 2 ^ 11) : |fpVal x - q| ≤ 1 / 2 ^ 13 := by
  have hle : (⌊q * 2 ^ 13⌋₊ : ℚ) ≤ q * 2 ^ 13 := Nat.floor_le (by positivity)
  have hgt : q * 2 ^ 13 < ⌊q * 2 ^ 13⌋₊ + 1 := Nat.lt_floor_add_one _
  have hfits : ⌊q * 2 ^ 13⌋₊ < 2 ^ 24 := (Nat.floor_lt (by positivity)).2 (by push_cast; linarith)
  obtain ⟨y, hy, hval⟩ := exists_fpInFormat (lt_two_pow_precision fmt hfits) (-13)
  have hscaled : fpVal y * 2 ^ 13 = ⌊q * 2 ^ 13⌋₊ := by
    rw [hval, zpow_neg, zpow_ofNat, inv_mul_cancel_right₀ (by norm_num)]
  calc |fpVal x - q| ≤ |fpVal y - q| := (h.2 y hy).1
    _ = q - fpVal y := by rw [abs_sub_comm, abs_of_nonneg (by linarith)]
    _ ≤ 1 / 2 ^ 13 := by linarith

/-- `x` is within `k` roundings of `q`, each of them on a number below `2^11`. -/
def WithinRoundings (k : Nat) (q : ℚ) (x : Fp) : Prop := |fpVal x - q| ≤ k / 2 ^ 13

theorem withinRoundings_rowMean (fmt : FpFormat) {k : Nat} (hk : k ≤ 1275) :
    WithinRoundings 1 (k / 5) (rowMean fmt k) := by
  have hk' : (k : ℚ) ≤ 1275 := by exact_mod_cast hk
  simpa [WithinRoundings] using (rowMean_isNearestEven fmt hk).abs_sub_le (by positivity) (by linarith)

/-- A sum has the errors of its terms, and that of its own rounding. -/
theorem WithinRoundings.fpAdd {fmt : FpFormat} {a b : Fp} {j k : Nat} {p q : ℚ} (ha : WithinRoundings j p a)
    (hb : WithinRoundings k q b) (hlt : fpVal a + fpVal b < 2 ^ 11) :
    WithinRoundings (j + k + 1) (p + q) (fpAdd fmt a b) := by
  have hround := (fpAdd_isNearestEven fmt a b).abs_sub_le (add_nonneg (fpVal_nonneg a) (fpVal_nonneg b)) hlt
  unfold WithinRoundings at ha hb ⊢
  push_cast
  rw [abs_le] at ha hb hround ⊢
  constructor <;> linarith

/-- A quotient by five has no more than the error of its dividend, and that of its own rounding. -/
theorem WithinRoundings.fpDiv_five {fmt : FpFormat} {a : Fp} {k : Nat} {q : ℚ} (ha : WithinRoundings k q a)
    (hlt : fpVal a < 2 ^ 11) : WithinRoundings (k + 1) (q / 5) (fpDiv fmt a (fpFive fmt)) := by
  have hround := (fpDiv_five_isNearestEven fmt a).abs_sub_le (div_nonneg (fpVal_nonneg a) (by norm_num)) (by linarith)
  have hk : (0 : ℚ) ≤ k / 2 ^ 13 := by positivity
  unfold WithinRoundings at ha ⊢
  push_cast
  rw [abs_le] at ha hround ⊢
  constructor <;> linarith

section
variable (fmt : FpFormat) {s0 s1 s2 s3 s4 : Nat} (h0 : s0 ≤ 1275) (h1 : s1 ≤ 1275) (h2 : s2 ≤ 1275) (h3 : s3 ≤ 1275)
  (h4 : s4 ≤ 1275)
include h0 h1 h2 h3 h4

/-- The ten roundings of R91, one after the other. -/
theorem withinRoundings_fusedQuotient :
    WithinRoundings 10 ((s0 + s1 + s2 + s3 + s4 : Nat) / 25) (fpDiv fmt (fusedAcc fmt s0 s1 s2 s3 s4) (fpFive fmt)) := by
  obtain ⟨hr0, hacc1, hacc2, hacc3, hacc4, _⟩ := fusedPathStaysInRange fmt s0 s1 s2 s3 s4 h0 h1 h2 h3 h4
  have mean_le {k : Nat} (hk : k ≤ 1275) : fpVal (rowMean fmt k) ≤ 255 := fpVal_rowMean_le fmt hk
  have w0 := withinRoundings_rowMean fmt h0
  have w1 := w0.fpAdd (fmt := fmt) (withinRoundings_rowMean fmt h1) (by linarith [mean_le h1])
  have w2 := w1.fpAdd (fmt := fmt) (withinRoundings_rowMean fmt h2) (by linarith [mean_le h2])
  have w3 := w2.fpAdd (fmt := fmt) (withinRoundings_rowMean fmt h3) (by linarith [mean_le h3])
  have w4 := w3.fpAdd (fmt := fmt) (withinRoundings_rowMean fmt h4) (by linarith [mean_le h4])
  have hmean : ((s0 + s1 + s2 + s3 + s4 : Nat) : ℚ) / 25 = (s0 / 5 + s1 / 5 + s2 / 5 + s3 / 5 + s4 / 5) / 5 := by
    push_cast
    ring
  rw [hmean]
  exact w4.fpDiv_five (hacc4.trans_lt (by norm_num))

/-- The truncation of R91 does not saturate. -/
theorem fusedPx_toNat :
    (fusedPx fmt s0 s1 s2 s3 s4).toNat = ⌊fpVal (fpDiv fmt (fusedAcc fmt s0 s1 s2 s3 s4) (fpFive fmt))⌋₊ := by
  obtain ⟨_, _, _, _, _, hquot⟩ := fusedPathStaysInRange fmt s0 s1 s2 s3 s4 h0 h1 h2 h3 h4
  exact truncU8_toNat (hquot.trans_lt (by norm_num))

end

/-- Ten roundings come to less than `1/25`. A multiple of `1/25` that is no integer is at least that far from the integers
on both sides, so its floor stays; an integer may be left a little below itself, and then loses a whole unit. -/
theorem WithinRoundings.floor {x : Fp} {total : Nat} (h : WithinRoundings 10 (total / 25) x) :
    (total % 25 ≠ 0 → ⌊fpVal x⌋₊ = total / 25) ∧
      (total % 25 = 0 → ⌊fpVal x⌋₊ = total / 25 ∨ ⌊fpVal x⌋₊ + 1 = total / 25) := by
  have hdm : total = 25 * (total / 25) + total % 25 := (Nat.div_add_mod total 25).symm
  have hmod : total % 25 ≤ 24 := Nat.le_of_lt_succ (Nat.mod_lt total (by decide))
  unfold WithinRoundings at h
  generalize total / 25 = c at hdm ⊢
  generalize total % 25 = t at hdm hmod ⊢
  have htotal : (total : ℚ) = 25 * c + t := by exact_mod_cast hdm
  have ht : (t : ℚ) ≤ 24 := by exact_mod_cast hmod
  obtain ⟨hlow, hhigh⟩ := abs_le.1 h
  rw [htotal] at hlow hhigh
  push_cast at hlow hhigh
  have hlt : fpVal x < c + 1 := by linarith
  have floor_eq (hc : (c : ℚ) ≤ fpVal x) : ⌊fpVal x⌋₊ = c := (Nat.floor_eq_iff (fpVal_nonneg x)).2 ⟨hc, hlt⟩
  constructor
  · intro hne
    have ht1 : (1 : ℚ) ≤ t := by exact_mod_cast Nat.one_le_iff_ne_zero.2 hne
    exact floor_eq (by linarith)
  · rintro rfl
    rcases le_or_gt (c : ℚ) (fpVal x) with hc | hc
    · exact .inl (floor_eq hc)
    · have hbelow : ⌊fpVal x⌋₊ < c := (Nat.floor_lt (fpVal_nonneg x)).2 hc
      have habove : c ≤ ⌊fpVal x⌋₊ + 1 := by
        have hnext := Nat.lt_floor_add_one (fpVal x)
        have : (c : ℚ) < (⌊fpVal x⌋₊ + 1 : Nat) + 1 := by push_cast at hlow ⊢; linarith
        exact Nat.le_of_lt_succ (by exact_mod_cast this)
      exact .inr (by omega)

/-- Settles O45: the quotient is within ten roundings of the mean. -/
theorem fusedSampleIsMeanOrOneLess : Obligations.FusedSampleIsMeanOrOneLess := by
  unfold Obligations.FusedSampleIsMeanOrOneLess
  intro fmt s0 s1 s2 s3 s4 h0 h1 h2 h3 h4
  rw [fusedPx_toNat fmt h0 h1 h2 h3 h4]
  exact (withinRoundings_fusedQuotient fmt h0 h1 h2 h3 h4).floor

/-- Settles O47, from O45: the floor of a mean that is no integer is less than one below it, so only an integer mean can be
one above the sample. -/
theorem fusedSampleIsWithinOneOfTheMean : Obligations.FusedSampleIsWithinOneOfTheMean := by
  unfold Obligations.FusedSampleIsWithinOneOfTheMean
  intro fmt s0 s1 s2 s3 s4 h0 h1 h2 h3 h4
  obtain ⟨hfrac, hint⟩ := fusedSampleIsMeanOrOneLess fmt s0 s1 s2 s3 s4 h0 h1 h2 h3 h4
  have hcast : (s0 + s1 + s2 + s3 + s4 : ℚ) = (s0 + s1 + s2 + s3 + s4 : Nat) := by push_cast; rfl
  rw [hcast]
  generalize s0 + s1 + s2 + s3 + s4 = total at hfrac hint ⊢
  generalize (fusedPx fmt s0 s1 s2 s3 s4).toNat = px at hfrac hint ⊢
  have bounds : total ≤ 25 * (px + 1) ∧ 25 * px ≤ total ∧ (total = 25 * (px + 1) → total % 25 = 0) := by
    rcases eq_or_ne (total % 25) 0 with hz | hnz
    · have := hint hz
      omega
    · have := hfrac hnz
      omega
  obtain ⟨hle, hge, heq⟩ := bounds
  have hle : (total : ℚ) ≤ 25 * (px + 1) := by exact_mod_cast hle
  have hge : (25 : ℚ) * px ≤ total := by exact_mod_cast hge
  refine ⟨by linarith, by linarith, fun h => heq ?_⟩
  have : (total : ℚ) = 25 * (px + 1) := by linarith
  exact_mod_cast this

end Sys2Proof.Machine
end

section
/-! PROOFS. The staged command: its COMPLETE (R106, R110), its horizontal pass (R101, R102, R107), and its sample against
the mean and the fused sample (R108). -/

namespace Sys2Proof.Machine

/-! ## COMPLETE -/

/-- Settles O18: the end of COMPLETE, where the mark is already clear, after the work of `exec_completes`. -/
theorem stagedCompletes : Obligations.StagedCompletes := by
  unfold Obligations.StagedCompletes
  intro s hb ht hs hcap
  obtain ⟨mem, hexec, hw⟩ := exec_completes (i := .blurStaged) hb ht hs fun _ => hcap
  refine ⟨mem, ?_, hw⟩
  rw [hexec, ht]
  rfl

/-! ## The horizontal pass -/

/-- The last four columns of every row stay `UNDEF` after the horizontal pass (R102). -/
theorem Filled.undef_of_last_columns {s : State} {visited : Nat → Nat → Prop} {scr : List Host.Cell}
    (h : Filled s visited scr) {r c : Nat} (hc : c < s.cols) (hlast : s.cols - 4 ≤ c) :
    lookupCell scr (elementAddr 0 s.cols r c) = none := by
  refine h.undef _ fun r' c' hc' _ heq => ?_
  obtain ⟨_, rfl⟩ := elementAddr_inj hc (by omega) heq
  omega

/-- The horizontal pass stays inside the scratch buffer of the command (R101). -/
theorem Filled.undef_of_beyond {s : State} {scr : List Host.Cell} (h : Filled s (fun r _ => r < s.rows) scr) {k : Nat}
    (hk : s.rows * s.cols ≤ k) : lookupCell scr k = none := by
  refine h.undef k fun r c hc hr heq => ?_
  have hinside := element_lt hr (show c < s.cols by omega)
  unfold elementAddr at heq
  omega

/-- Settles O21, from what `producer_eq` says the loop has filled. -/
theorem producerFillsTheScratchRows : Obligations.ProducerFillsTheScratchRows := by
  unfold Obligations.ProducerFillsTheScratchRows
  intro s hcap hin
  obtain ⟨scr, hproducer, hscr⟩ := producer_eq hcap hin
  exact ⟨scr, hproducer, fun r c hr hc => hscr.stored r c hc hr,
    fun _ _ _ hc hlast => hscr.undef_of_last_columns hc hlast, fun _ hk => hscr.undef_of_beyond hk⟩

/-! ## The staged sample (R108) -/

/-- The two floors lose at most `8/5`: the five row remainders come to at most 20, and the remainder of the column sum,
at most 4, counts five times. -/
theorem stagedPx_bounds (s0 s1 s2 s3 s4 : Nat) :
    25 * stagedPx s0 s1 s2 s3 s4 ≤ s0 + s1 + s2 + s3 + s4 ∧
      s0 + s1 + s2 + s3 + s4 ≤ 25 * stagedPx s0 s1 s2 s3 s4 + 40 := by
  unfold stagedPx
  omega

/-- The staged sample reaches the mean only where no row loses anything. -/
theorem multiples_of_five_of_stagedPx_eq_mean {s0 s1 s2 s3 s4 : Nat}
    (h : s0 + s1 + s2 + s3 + s4 = 25 * stagedPx s0 s1 s2 s3 s4) :
    s0 % 5 = 0 ∧ s1 % 5 = 0 ∧ s2 % 5 = 0 ∧ s3 % 5 = 0 ∧ s4 % 5 = 0 := by
  unfold stagedPx at h
  omega

section
variable (fmt : FpFormat) {s0 s1 s2 s3 s4 : Nat} (h0 : s0 ≤ 1275) (h1 : s1 ≤ 1275) (h2 : s2 ≤ 1275) (h3 : s3 ≤ 1275)
  (h4 : s4 ≤ 1275)
include h0 h1 h2 h3 h4

/-- On multiples of five both samples are the truncated mean of the five row means (R93 (c)). -/
theorem fusedPx_eq_stagedPx_of_multiples_of_five
    (hm : s0 % 5 = 0 ∧ s1 % 5 = 0 ∧ s2 % 5 = 0 ∧ s3 % 5 = 0 ∧ s4 % 5 = 0) :
    (fusedPx fmt s0 s1 s2 s3 s4).toNat = stagedPx s0 s1 s2 s3 s4 := by
  obtain ⟨hm0, hm1, hm2, hm3, hm4⟩ := hm
  have hexact := (fusedSampleIsExactOnMultiplesOfFive fmt (s0 / 5) (s1 / 5) (s2 / 5) (s3 / 5) (s4 / 5) (by omega)
    (by omega) (by omega) (by omega) (by omega)).2
  rwa [Nat.mul_div_cancel' (Nat.dvd_of_mod_eq_zero hm0), Nat.mul_div_cancel' (Nat.dvd_of_mod_eq_zero hm1),
    Nat.mul_div_cancel' (Nat.dvd_of_mod_eq_zero hm2), Nat.mul_div_cancel' (Nat.dvd_of_mod_eq_zero hm3),
    Nat.mul_div_cancel' (Nat.dvd_of_mod_eq_zero hm4)] at hexact

/-- The fused sample could be below the staged one only where it deviates from a mean that the staged one reaches, and
there it does not deviate. -/
theorem fusedPx_eq_stagedPx_or_succ :
    (fusedPx fmt s0 s1 s2 s3 s4).toNat = stagedPx s0 s1 s2 s3 s4 ∨
      (fusedPx fmt s0 s1 s2 s3 s4).toNat = stagedPx s0 s1 s2 s3 s4 + 1 := by
  obtain ⟨hfrac, hint⟩ := fusedSampleIsMeanOrOneLess fmt s0 s1 s2 s3 s4 h0 h1 h2 h3 h4
  obtain ⟨hle, hge⟩ := stagedPx_bounds s0 s1 s2 s3 s4
  by_cases hreached : s0 + s1 + s2 + s3 + s4 = 25 * stagedPx s0 s1 s2 s3 s4
  · exact .inl (fusedPx_eq_stagedPx_of_multiples_of_five fmt h0 h1 h2 h3 h4
      (multiples_of_five_of_stagedPx_eq_mean hreached))
  · rcases eq_or_ne ((s0 + s1 + s2 + s3 + s4) % 25) 0 with hz | hnz
    · have := hint hz
      omega
    · have := hfrac hnz
      omega

end

/-- Settles O48. Neither of the rule's two examples has a total divisible by 25, so that R93 (a) gives its fused sample. -/
theorem stagedAgainstFused : Obligations.StagedAgainstFused := by
  unfold Obligations.StagedAgainstFused
  intro fmt
  have fused_of_frac := fun s (hs : s ≤ 1275) t (ht : t ≤ 1275) =>
    (fusedSampleIsMeanOrOneLess fmt s s s s t hs hs hs hs ht).1
  refine ⟨fun s0 s1 s2 s3 s4 h0 h1 h2 h3 h4 => ⟨?_, ?_, fusedPx_eq_stagedPx_or_succ fmt h0 h1 h2 h3 h4,
      fun hm0 hm1 hm2 hm3 hm4 =>
        fusedPx_eq_stagedPx_of_multiples_of_five fmt h0 h1 h2 h3 h4 ⟨hm0, hm1, hm2, hm3, hm4⟩⟩,
    fused_of_frac 19 (by decide) 19 (by decide) (by decide), rfl,
    fused_of_frac 24 (by decide) 255 (by decide) (by decide), rfl⟩
  · have hge : (s0 + s1 + s2 + s3 + s4 : ℚ) ≤ 25 * stagedPx s0 s1 s2 s3 s4 + 40 := by
      exact_mod_cast (stagedPx_bounds s0 s1 s2 s3 s4).2
    linarith
  · have hle : (25 * stagedPx s0 s1 s2 s3 s4 : ℚ) ≤ s0 + s1 + s2 + s3 + s4 := by
      exact_mod_cast (stagedPx_bounds s0 s1 s2 s3 s4).1
    linarith

end Sys2Proof.Machine
end

section
/-! PROOFS. The two declared-only variants, which are the staged command under other words (R115, R116, R117): one
argument over every command but `blur_fused`, used once for each of them. -/

namespace Sys2Proof.Machine

/-! ## The checks of START -/

/-- `FirstError` looks at a word only for whether it is legal and whether it needs scratch memory (R121, R125). -/
theorem firstError_eq_of_legal {v w : Word} (hv : ¬ illegal v) (hw : ¬ illegal w) (h : stagedOp v ↔ stagedOp w)
    (s : State) : s.firstError v = s.firstError w := by
  have hoom : oomViolated s.params.scratchCap v s.rows s.cols ↔ oomViolated s.params.scratchCap w s.rows s.cols :=
    and_congr_left' h
  simp only [State.firstError, firstError, hv, hw, hoom]

/-- START of two words with the same first error differs in what `CMD` holds after it, and in nothing else (R60). -/
theorem start_eq_of_firstError_eq {v w : Word} {s : State} (h : s.firstError w = s.firstError v) :
    start w s = { start v s with cmd := w } := by
  by_cases hpasses : s.firstError v = .none
  · rw [start_of_firstError_eq_none hpasses, start_of_firstError_eq_none (h.trans hpasses)]
  · rw [start_of_firstError_ne_none hpasses, start_of_firstError_ne_none (h ▸ hpasses), h]

/-! ## The staged commands -/

/-- The next step of a command in `BUSY` is COMPLETE (R61). -/
theorem exec_of_busy {s : State} (hb : s.seq = .busy) (i : Instr) : exec i s = complete (effectOf i) s := by
  simp [exec_eq, commandStep, hb]

section
variable {i : Instr} (hi : i ≠ .blurFused)
include hi

/-- A staged command has the conditions of `blur_staged`, in its priority, `ERR_OOM` included (R115, R116, R125). -/
theorem firstError_encode_eq_blurStaged (s : State) : s.firstError (encode i) = s.firstError (encode .blurStaged) :=
  firstError_eq_of_legal (not_illegal_encode i) (not_illegal_encode .blurStaged)
    (iff_of_true ((stagedOp_encode i).2 hi) ((stagedOp_encode .blurStaged).2 nofun)) s

/-- START of a staged command ends as that of `blur_staged`; `CMD` reads back the word written. -/
theorem starts_as_blurStaged {s : State} (ho : openState s) :
    ∃ t, exec .blurStaged s = .next t ∧ exec i s = .next { t with cmd := encode i } := by
  refine ⟨_, exec_of_open ho _, ?_⟩
  rw [exec_of_open ho, start_eq_of_firstError_eq (firstError_encode_eq_blurStaged hi s)]

theorem effectOf_eq_stagedEffect : effectOf i = stagedEffect := by
  cases i with
  | blurFused => exact absurd rfl hi
  | blurStaged | computeAtStoreAt | computeAtStoreRoot => rfl

/-- COMPLETE of a staged command is that of `blur_staged`, whatever the operands and whether or not the host kept
its hands off: it does not read `CMD` (R61, R117). -/
theorem exec_eq_blurStaged_of_busy {s : State} (hb : s.seq = .busy) : exec i s = exec .blurStaged s := by
  rw [exec_of_busy hb, exec_of_busy hb, effectOf_eq_stagedEffect hi, effectOf]

/-- Under the conditions of O18 a staged command answers what O18 says of `blur_staged`. -/
theorem completes_as_blurStaged {s : State} (hb : s.seq = .busy) (ht : s.tainted = false) (hs : OperandsAccepted s)
    (hcap : s.rows * s.cols ≤ s.params.scratchCap) :
    ∃ mem, exec i s = .next { s with mem := mem, scr := [], seq := .done, unseen := s.unseen ++ [s.operands] } ∧
      exec .blurStaged s = .next
        { s with mem := mem, scr := [], seq := .done, unseen := s.unseen ++ [s.operands] } ∧
      WritesExactly s (stagedByte s) mem := by
  obtain ⟨mem, hstaged, hw⟩ := stagedCompletes s hb ht hs hcap
  exact ⟨mem, (exec_eq_blurStaged_of_busy hi hb).trans hstaged, hstaged, hw⟩

end

/-- Settles O19: `compute_at_store_at` is a staged command, and its word is 3. -/
theorem computeAtStoreAtIsStaged : Obligations.ComputeAtStoreAtIsStaged := by
  unfold Obligations.ComputeAtStoreAtIsStaged
  exact fun s => ⟨completes_as_blurStaged (by decide), starts_as_blurStaged (by decide)⟩

/-- Settles O20: `compute_at_store_root` is a staged command, and its word is 4. -/
theorem computeAtStoreRootIsStaged : Obligations.ComputeAtStoreRootIsStaged := by
  unfold Obligations.ComputeAtStoreRootIsStaged
  exact fun s => ⟨completes_as_blurStaged (by decide), starts_as_blurStaged (by decide)⟩

end Sys2Proof.Machine
end

section
/-! PROOFS. The errors of START in their priority (R120 to R127), `FAULT` and its only way out (R128), and that no step
of the invariant stops (R129). -/

namespace Sys2Proof.Machine

/-! ## Command words -/

/-- The codes of R53 and those R55 reserves are all there are. -/
theorem not_assigned_iff {op : Byte} :
    ¬ (op = 1#8 ∨ op = 2#8 ∨ op = 3#8 ∨ op = 4#8) ↔ op = 0#8 ∨ 5#8 ≤ op := by revert op; decide

theorem illegal_iff {w : Word} : illegal w ↔ reservedField w ≠ 0#24 ∨ opField w = 0#8 ∨ 5#8 ≤ opField w :=
  or_congr_right not_assigned_iff

theorem exists_encode_of_not_illegal {w : Word} (h : ¬ illegal w) : ∃ i, w = encode i := by
  rcases decode_cases w with ⟨hr, _⟩ | ⟨i, hw, _⟩ | ⟨_, hop, _⟩
  · exact absurd (.inl hr) h
  · exact ⟨i, hw⟩
  · exact absurd (illegal_iff.2 (.inr (decodeOp_eq_none.1 hop))) h

/-- `Illegal` (R121) is the negation of the legality of R55. -/
theorem legalWord_eq_false {w : Word} : legalWord w = false ↔ illegal w := by
  rw [← Bool.not_eq_true, legalWord, reservedClear, opAssigned]
  simp only [Bool.and_eq_true, Bool.or_eq_true, beq_iff_eq, not_and_or, or_assoc]
  rfl

/-! ## No step stops (R129) -/

/-- A running command is one of the four, and its scratch buffer fits where it needs one (R60, R125). -/
theorem Inv.running_command {s : State} (h : Inv s) (hb : s.seq = .busy) :
    ∃ i, s.cmd = encode i ∧ scratchAccepted i s := by
  obtain ⟨hlegal, _, _, _, hoom⟩ := firstError_eq_none.1 (h.busy hb)
  obtain ⟨i, hi⟩ := exists_encode_of_not_illegal hlegal
  refine ⟨i, hi, fun hne => Nat.not_lt.1 fun hexceeds => hoom ⟨?_, hexceeds⟩⟩
  rw [hi]
  exact (stagedOp_encode i).2 hne

/-- COMPLETE answers, whether the host has kept its hands off the command or not. -/
theorem Inv.completeStep_answers {s : State} (h : Inv s) (hb : s.seq = .busy) :
    ∃ t, Machine.completeStep s = .next t := by
  obtain ⟨i, hi, hcap⟩ := h.running_command hb
  obtain ⟨_, haccepted⟩ := h.running hb
  rw [completeStep_of_cmd hi]
  cases ht : s.tainted with
  | false =>
    obtain ⟨mem, hexec, _⟩ := exec_completes hb ht haccepted hcap
    exact ⟨_, hexec⟩
  | true =>
    obtain ⟨mem, hhavoc, _⟩ := havocOutValid_eq haccepted.outRange
    exact ⟨_, by rw [exec_of_busy hb, complete, ht, if_pos rfl, hhavoc]; rfl⟩

theorem Inv.engineTurn_answers {s : State} (h : Inv s) : ∃ t, Machine.engineTurn s = .next t := by
  rcases engineTurn_cases s with ⟨hb, he⟩ | ⟨_, he⟩ <;> rw [he]
  · exact h.completeStep_answers hb
  · exact ⟨s, rfl⟩

theorem portStep_answers (tr : Transaction) (s : State) : ∃ t, portStep tr s = .next t := by
  unfold portStep
  split
  · by_cases ho : openState s
    · exact ⟨_, regWrite_of_open ho _ _⟩
    · exact ⟨_, regWrite_of_not_open ho _ _⟩
  · exact ⟨_, rfl⟩

/-- A violation of R153 stores at addresses of accepted commands only, and those exist (R123). -/
theorem Inv.breakHandsOff_answers {s : State} (h : Inv s) (touches : State → Bool) :
    ∃ t, toOutcome (Machine.breakHandsOff touches s) = .next t := by
  obtain ⟨mem, count, hok, _⟩ := breakHandsOff_eq (touches := touches) h.unseen_outRange
  exact ⟨_, toOutcome_eq_next.2 hok⟩

theorem Inv.hostWrite_answers {s : State} (h : Inv s) (a : Word) (v : Byte) : ∃ t, Machine.hostWrite a v s = .next t :=
  (h.setMem (setByte_wf v a.isLt h.mem)).breakHandsOff_answers _

theorem Inv.hostRead_answers {s : State} (h : Inv s) (a : Word) : ∃ t, Machine.hostRead a s = .next t := by
  rcases hostRead_cases a s with ⟨_, he⟩ | ⟨_, he⟩ <;> rw [he]
  · exact (h.respond _).countDraw.breakHandsOff_answers _
  · exact ⟨_, rfl⟩

theorem Inv.pollStep_answers {s : State} (h : Inv s) (spins : Nat) (rest : List Event) :
    ∃ t, Machine.pollStep spins rest s = .next t := by
  rcases pollStep_cases spins rest s with ⟨hb, _, he⟩ | ⟨es, he, _⟩ <;> rw [he]
  · exact (h.setEvents (.poll 0 :: rest)).completeStep_answers hb
  · exact ⟨_, rfl⟩

theorem Inv.resetEvent_answers {s : State} (h : Inv s) : ∃ t, Machine.resetEvent s = .next t := by
  unfold Machine.resetEvent
  split
  · next hb =>
    obtain ⟨_, haccepted⟩ := h.running hb
    obtain ⟨mem, hhavoc, _⟩ := havocOutValid_eq haccepted.outRange
    exact ⟨_, by rw [hhavoc]; rfl⟩
  · exact ⟨_, rfl⟩

/-- Settles O38: each event answers; the engine's work does so because a running command has passed the checks of START. -/
theorem noStepStops : Obligations.NoStepStops := by
  unfold Obligations.NoStepStops
  intro s h
  rcases step_cases s with ⟨_, he⟩ | ⟨e, rest, _, he⟩ <;> rw [he]
  · exact h.engineTurn_answers
  · have hrest := h.setEvents rest
    cases e with
    | port tr => exact portStep_answers tr _
    | memWrite a v => exact hrest.hostWrite_answers a v
    | memRead a => exact hrest.hostRead_answers a
    | engine => exact hrest.engineTurn_answers
    | poll spins => exact h.pollStep_answers spins rest
    | reset => exact hrest.resetEvent_answers

/-! ## The priority of the errors (R126) -/

section
variable {cap : Nat} {w : Word} {n m g inp : Nat}

/-- The condition of the error that is reported holds. -/
theorem errorHolds_firstError (h : firstError cap w n m g inp ≠ .none) :
    errorHolds cap w n m g inp (firstError cap w n m g inp) := by
  unfold firstError
  split_ifs with hw hp hr ha ho
  · exact legalWord_eq_false.2 hw
  · exact hp
  · exact hr
  · exact ha
  · exact ho
  · exact h (firstError_eq_none.2 ⟨hw, hp, hr, ha, ho⟩)

/-- An error whose condition holds is reported unless one of a lower code is: the checks end with its own at the
latest. -/
theorem firstError_code_le {e : ErrCode} (h : errorHolds cap w n m g inp e) :
    firstError cap w n m g inp ≠ .none ∧ (firstError cap w n m g inp).code.toNat ≤ e.code.toNat := by
  unfold firstError
  cases e with
  | none => exact h.elim
  | illegalCmd =>
    rw [if_pos (legalWord_eq_false.1 h)]
    decide
  | precond =>
    rw [if_pos (c := precondViolated n m) h]
    split <;> decide
  | range =>
    rw [if_pos (c := rangeViolated n m g inp) h]
    (repeat' split) <;> decide
  | aliased =>
    rw [if_pos (c := aliasViolated n m g inp) h]
    (repeat' split) <;> decide
  | oom =>
    rw [if_pos (c := oomViolated cap w n m) h]
    (repeat' split) <;> decide

end

/-- Settles O9: what is reported holds, and everything that holds is preceded by what is reported. -/
theorem firstErrorIsTheLowestCode : Obligations.FirstErrorIsTheLowestCode := by
  unfold Obligations.FirstErrorIsTheLowestCode
  refine fun cap w n m g inp => ⟨⟨fun hnone e he => (firstError_code_le he).1 hnone, fun h => ?_⟩, fun h =>
    ⟨errorHolds_firstError h, fun e he => (firstError_code_le he).2⟩⟩
  exact by_contra fun hne => h _ (errorHolds_firstError hne)

/-! ## Each error at START (R121 to R125) -/

theorem not_precondViolated {n m : Nat} (hn : 5 < n) (hm : 5 < m) : ¬ precondViolated n m :=
  not_or.2 ⟨Nat.not_le.2 hn, Nat.not_le.2 hm⟩

theorem firstError_eq_illegalCmd {s : State} {w : Word} (hw : illegal w) : s.firstError w = .illegalCmd := by
  rw [State.firstError, firstError, if_pos hw]

section
variable {s : State} {w : Word} (hw : ¬ illegal w)
include hw

theorem firstError_eq_range (hp : ¬ precondViolated s.rows s.cols)
    (hr : rangeViolated s.rows s.cols s.outBase s.inBase) : s.firstError w = .range := by
  rw [State.firstError, firstError, if_neg hw, if_neg hp, if_pos hr]

theorem firstError_eq_aliased (hp : ¬ precondViolated s.rows s.cols)
    (hr : ¬ rangeViolated s.rows s.cols s.outBase s.inBase) (ha : aliasViolated s.rows s.cols s.outBase s.inBase) :
    s.firstError w = .aliased := by
  rw [State.firstError, firstError, if_neg hw, if_neg hp, if_neg hr, if_pos ha]

theorem firstError_eq_oom (hs : OperandsAccepted s) (ho : oomViolated s.params.scratchCap w s.rows s.cols) :
    s.firstError w = .oom := by
  obtain ⟨hp, hr, ha⟩ := (operandsAccepted_iff s).1 hs
  rw [State.firstError, firstError, if_neg hw, if_neg hp, if_neg hr, if_neg ha, if_pos ho]

end

/-- A command that fails a check in `IDLE` or `DONE` ends in the fault entry (R60, R127). -/
theorem exec_of_firstError {i : Instr} {s : State} {e : ErrCode} (ho : openState s) (hne : e ≠ .none)
    (he : s.firstError (encode i) = e) :
    exec i s = .next { s with cmd := encode i, tainted := false, err := e, seq := .fault } := by
  rw [exec_of_open ho, start_of_firstError_ne_none (he ▸ hne), he]

/-- Settles O10: the first check fails, whatever the operands. -/
theorem illegalWordFaults : Obligations.IllegalWordFaults := by
  unfold Obligations.IllegalWordFaults
  intro s w rest he ho hw
  have herr : s.firstError w = .illegalCmd := firstError_eq_illegalCmd (illegal_iff.2 hw)
  obtain ⟨_, hfails, _⟩ := cmdWriteIsStart s w rest he
  rw [hfails ho (herr ▸ nofun), herr]

/-- Settles O12: a command's word passes the first check, and the second fails. -/
theorem precondViolationFaults : Obligations.PrecondViolationFaults := by
  unfold Obligations.PrecondViolationFaults
  intro i s ho hp
  exact exec_of_firstError ho nofun (firstError_eq_precond (not_illegal_encode i) hp)

/-- An element of a buffer that ends in range has an address in range (R31, R123). -/
theorem elementAddr_le {base rows cols r c : Nat} (hr : r < rows) (hc : c < cols) (h : base + rows * cols ≤ 2 ^ 32) :
    elementAddr base cols r c ≤ 2 ^ 32 - 1 := by
  have hinside := element_lt hr hc
  unfold elementAddr
  omega

/-- Settles O13: the third check fails; where neither of its conditions holds, every element lies inside its buffer. -/
theorem rangeViolationFaults : Obligations.RangeViolationFaults := by
  unfold Obligations.RangeViolationFaults
  refine ⟨fun i s ho hn hm hr => ?_, fun s r c h hr hc => ?_⟩
  · exact exec_of_firstError ho nofun
      (firstError_eq_range (not_illegal_encode i) (not_precondViolated hn hm) hr)
  · obtain ⟨hin, hout⟩ := not_or.1 h
    exact ⟨elementAddr_le hr hc (Nat.not_lt.1 hin), elementAddr_le hr hc (Nat.not_lt.1 hout)⟩

/-- A byte in both footprints makes the intervals of R124 meet. -/
theorem aliasViolated_of_shared {s : State} {a : Nat} (hin : inFootprint s a = true) (hout : outFootprint s a = true) :
    aliasViolated s.rows s.cols s.outBase s.inBase := by
  obtain ⟨hin, hin'⟩ := (inFootprint_iff s a).1 hin
  obtain ⟨hout, hout'⟩ := (outFootprint_iff s a).1 hout
  exact ⟨hin.trans_lt hout', hout.trans_lt hin'⟩

/-- Settles O14: the first three checks pass, and the shared byte fails the fourth. -/
theorem sharedByteFaults : Obligations.SharedByteFaults := by
  unfold Obligations.SharedByteFaults
  rintro i s ho hn hm hin hout ⟨a, hain, haout⟩
  have hr : ¬ rangeViolated s.rows s.cols s.outBase s.inBase := not_or.2 ⟨Nat.not_lt.2 hin, Nat.not_lt.2 hout⟩
  exact exec_of_firstError ho nofun
    (firstError_eq_aliased (not_illegal_encode i) (not_precondViolated hn hm) hr (aliasViolated_of_shared hain haout))

/-- `blur_fused` never runs out of scratch memory (R125). -/
theorem firstError_blurFused_ne_oom (s : State) : s.firstError (encode .blurFused) ≠ .oom := by
  intro he
  have holds : errorHolds s.params.scratchCap (encode .blurFused) s.rows s.cols s.outBase s.inBase .oom :=
    he ▸ errorHolds_firstError (show s.firstError (encode .blurFused) ≠ .none from he ▸ nofun)
  exact (stagedOp_encode .blurFused).1 holds.1 rfl

/-- A staged command needs at least 36 bytes of scratch memory: six rows of six columns (R122, R125). -/
theorem firstError_ne_none_of_small_scratch {i : Instr} {s : State} (hi : i ≠ .blurFused)
    (hcap : s.params.scratchCap < 36) : s.firstError (encode i) ≠ .none := by
  intro hnone
  obtain ⟨_, hprecond, _, _, hoom⟩ := firstError_eq_none.1 hnone
  have hsize : 6 * 6 ≤ s.rows * s.cols := Nat.mul_le_mul (by omega) (by omega)
  exact hoom ⟨(stagedOp_encode i).2 hi, by omega⟩

/-- Settles O15: the last check fails; it is none of `blur_fused`'s, and below 36 bytes no staged command passes all. -/
theorem scratchTooSmallFaults : Obligations.ScratchTooSmallFaults := by
  unfold Obligations.ScratchTooSmallFaults
  refine ⟨fun i s ho hs hi hcap => ?_, fun s t ho ht hfault => ?_, fun i s ho hi hcap => ?_⟩
  · exact exec_of_firstError ho nofun
      (firstError_eq_oom (not_illegal_encode i) hs ⟨(stagedOp_encode i).2 hi, hcap⟩)
  · obtain rfl := Host.Outcome.next.inj ((exec_of_open ho _).symm.trans ht)
    rcases start_cases (encode .blurFused) s with ⟨_, hs⟩ | ⟨_, hs⟩
    · rw [hs] at hfault
      exact absurd hfault nofun
    · rw [hs]
      exact firstError_blurFused_ne_oom s
  · exact ⟨_, exec_of_firstError ho (firstError_ne_none_of_small_scratch hi hcap) rfl, rfl⟩

/-! ## `FAULT` (R128) -/

/-- The state with memory and the model's own fields blank: two states agree in it where their registers, sequencer,
error code, scratch memory and parameters agree. -/
def engineOf (s : State) : State :=
  { s with mem := [], events := [], out := [], tainted := false, unseen := [], drawn := 0 }

theorem engineOf_eq_iff {s t : State} : engineOf t = engineOf s ↔
    t.ctx = s.ctx ∧ t.n = s.n ∧ t.m = s.m ∧ t.g = s.g ∧ t.inp = s.inp ∧ t.cmd = s.cmd ∧ t.seq = s.seq ∧ t.err = s.err ∧
      t.scr = s.scr ∧ t.params = s.params := by
  simp [engineOf]

theorem engineOf_regRead (r : Reg) (s : State) : engineOf (regRead r s) = engineOf s := by
  rw [regRead_eq]
  rfl

theorem engineOf_havocPositionAt {addrs : Nat → Bool} {i j : Nat} {s t : State}
    (h : havocPositionAt addrs i j s = .ok t) : engineOf t = engineOf s := by
  unfold havocPositionAt at h
  split at h
  · obtain ⟨_, rfl⟩ := storeG_eq_ok.1 h
    rfl
  · obtain rfl := Except.ok.inj h
    rfl

theorem engineOf_havocCommand {addrs : Nat → Bool} {o : Operands} {s t : State} (h : havocCommand addrs o s = .ok t) :
    engineOf t = engineOf s := by
  obtain ⟨u, hu, rfl⟩ := except_map_eq_ok.1 h
  have hloop : engineOf u = engineOf (useOperands o s) :=
    forValid_keeps (fun v => engineOf v = engineOf (useOperands o s)) rfl
      (fun _ _ _ _ hv hvw => (engineOf_havocPositionAt hvw).trans hv) hu
  exact congrArg (useOperands s.operands) hloop

theorem engineOf_havocCommands {addrs : Nat → Bool} {os : List Operands} {s t : State}
    (h : havocCommands addrs os s = .ok t) : engineOf t = engineOf s := by
  induction os generalizing s with
  | nil =>
    obtain rfl := Except.ok.inj h
    rfl
  | cons o rest ih =>
    obtain ⟨u, hu, h⟩ := except_bind_eq_ok.1 h
    exact (ih h).trans (engineOf_havocCommand hu)

/-- A violation of R153 changes nothing of the engine. -/
theorem engineOf_breakHandsOff {touches : State → Bool} {s t : State} (h : breakHandsOff touches s = .ok t) :
    engineOf t = engineOf s := by
  obtain ⟨u, hu, rfl⟩ := except_map_eq_ok.1 h
  have hwork : engineOf u = engineOf s := by
    split at hu
    · exact engineOf_havocCommands hu
    · obtain rfl := Except.ok.inj hu
      rfl
  split <;> exact hwork

theorem engineOf_hostWrite {a : Word} {v : Byte} {s t : State} (h : hostWrite a v s = .next t) :
    engineOf t = engineOf s :=
  engineOf_breakHandsOff (s := setMem (setByte s.mem a.toNat v) s) (toOutcome_eq_next.1 h)

theorem engineOf_hostRead {a : Word} {s t : State} (h : hostRead a s = .next t) : engineOf t = engineOf s := by
  rcases hostRead_cases a s with ⟨_, he⟩ | ⟨_, he⟩ <;> rw [he] at h
  · exact engineOf_breakHandsOff (s := countDraw (respond _ s)) (toOutcome_eq_next.1 h)
  · obtain rfl := Host.Outcome.next.inj h
    rfl

theorem not_openState_of_fault {s : State} (hf : s.seq = .fault) : ¬ openState s := not_openState_iff.2 (.inr hf)

theorem ne_busy_of_fault {s : State} (hf : s.seq = .fault) : s.seq ≠ .busy := hf ▸ nofun

theorem exec_of_fault {s : State} (hf : s.seq = .fault) (i : Instr) : exec i s = .next s := by
  simp [exec_eq, commandStep, hf]

theorem engineOf_portStep_of_fault {tr : Transaction} {s t : State} (hf : s.seq = .fault)
    (h : portStep tr s = .next t) : engineOf t = engineOf s := by
  unfold portStep at h
  split at h
  · rw [regWrite_of_not_open (not_openState_of_fault hf)] at h
    obtain rfl := Host.Outcome.next.inj h
    rfl
  · obtain rfl := Host.Outcome.next.inj h
    exact engineOf_regRead _ _

theorem engineOf_engineTurn_of_fault {s t : State} (hf : s.seq = .fault) (h : engineTurn s = .next t) :
    engineOf t = engineOf s := by
  obtain rfl := Host.Outcome.next.inj ((engineTurn_of_not_busy (ne_busy_of_fault hf)).symm.trans h)
  rfl

theorem engineOf_pollStep_of_fault {spins : Nat} {rest : List Event} {s t : State} (hf : s.seq = .fault)
    (h : pollStep spins rest s = .next t) : engineOf t = engineOf s := by
  rcases pollStep_cases spins rest s with ⟨hb, _⟩ | ⟨es, he, _⟩
  · exact absurd hb (ne_busy_of_fault hf)
  · obtain rfl := Host.Outcome.next.inj (he.symm.trans h)
    exact engineOf_regRead .status s

/-- In `FAULT` no event but reset changes anything of the engine. -/
theorem engineOf_step_of_fault {s t : State} (hf : s.seq = .fault) (h : step s = .next t) :
    (∃ rest, s.events = .reset :: rest) ∨ engineOf t = engineOf s := by
  rcases step_cases s with ⟨_, he⟩ | ⟨e, rest, hev, he⟩ <;> rw [he] at h
  · exact .inr (engineOf_engineTurn_of_fault hf h)
  · cases e with
    | port tr => exact .inr (engineOf_portStep_of_fault (s := setEvents rest s) hf h)
    | memWrite a v => exact .inr (engineOf_hostWrite (s := setEvents rest s) h)
    | memRead a => exact .inr (engineOf_hostRead (s := setEvents rest s) h)
    | engine => exact .inr (engineOf_engineTurn_of_fault (s := setEvents rest s) hf h)
    | poll spins => exact .inr (engineOf_pollStep_of_fault hf h)
    | reset => exact .inl ⟨rest, hev⟩

/-- Reset outside `BUSY` (R150). -/
theorem step_reset_of_not_busy {s : State} {rest : List Event} (he : s.events = .reset :: rest) (hb : s.seq ≠ .busy) :
    step s = .next (resetEngine (setEvents rest s)) := by
  rw [step_cons he, eventStep, resetEvent, if_neg (show (setEvents rest s).seq ≠ .busy from hb)]

/-- Settles O16: what the port, every event and reset do in `FAULT`. -/
theorem faultIsLeftByResetOnly : Obligations.FaultIsLeftByResetOnly := by
  unfold Obligations.FaultIsLeftByResetOnly
  intro s hf
  refine ⟨exec_of_fault hf, fun tr rest he hw => ?_, fun tr rest he hr => ⟨readReg (Reg.ofIdx tr.idx) s, ?_⟩,
    fun t h => ?_, fun rest he => step_reset_of_not_busy he (ne_busy_of_fault hf)⟩
  · rw [step_write he hw]
    exact regWrite_of_not_open (s := setEvents rest s) (not_openState_of_fault hf) _ _
  · rw [step_read he hr]
    simp [hf]
  · refine (engineOf_step_of_fault hf h).imp_right fun hengine => ?_
    obtain ⟨hctx, hn, hm, hg, hinp, hcmd, hseq, herr, hscr, hparams⟩ := engineOf_eq_iff.1 hengine
    exact ⟨hctx, hn, hm, hg, hinp, hcmd, herr, hseq.trans hf, hscr, hparams⟩

end Sys2Proof.Machine
end

section
/-! PROOFS. Which bytes of memory a step may change (R32, R161), reset (R150, R151), and what follows where the host
breaks the hands-off rule (R153, U4). -/

namespace Sys2Proof.Machine

/-! ## Which bytes a step changes, event by event -/

theorem start_mem (w : Word) (s : State) : (start w s).mem = s.mem := by
  rcases start_cases w s with ⟨_, h⟩ | ⟨_, h⟩ <;> rw [h]

theorem writeOperand_mem (r : Reg) (v : Word) (s : State) : (writeOperand r v s).mem = s.mem := by
  obtain ⟨_, _, _, _, hmem, _⟩ := writeOperand_frame r v s
  exact hmem

@[simp] theorem regRead_mem (r : Reg) (s : State) : (regRead r s).mem = s.mem := by rw [regRead_eq]

section
variable {s t : State} {a : Nat}

/-- No transaction of the port changes memory: START does not, and COMPLETE is not the port's (R18, R60). -/
theorem portStep_mem {tr : Transaction} (h : portStep tr s = .next t) : t.mem = s.mem := by
  unfold portStep at h
  split at h
  · by_cases ho : openState s
    · rw [regWrite_of_open ho] at h
      obtain rfl := Host.Outcome.next.inj h
      split
      · exact start_mem _ _
      · exact writeOperand_mem _ _ _
    · rw [regWrite_of_not_open ho] at h
      obtain rfl := Host.Outcome.next.inj h
      rfl
  · obtain rfl := Host.Outcome.next.inj h
    exact regRead_mem _ _

theorem EngineWork.outValid_of_changed (h : EngineWork s t) (hn : readByte t.mem a ≠ readByte s.mem a) :
    Machine.outValid s a = true :=
  Bool.eq_true_of_not_eq_false fun hv => hn (h.frame a hv)

/-- A byte COMPLETE changes is in `OutValid`, whether the host has kept its hands off or not (R32, U4). -/
theorem completeStep_changes (hb : s.seq = .busy) (h : completeStep s = .next t)
    (hn : readByte t.mem a ≠ readByte s.mem a) : t.seq ≠ .busy ∧ outValid s a = true := by
  obtain ⟨i, u, _, hu, rfl⟩ := completeStep_eq_next hb h
  obtain ⟨hwork, _⟩ := engineWork_complete hu
  exact ⟨nofun, hwork.outValid_of_changed hn⟩

theorem engineTurn_changes (h : engineTurn s = .next t) (hn : readByte t.mem a ≠ readByte s.mem a) :
    s.seq = .busy ∧ t.seq ≠ .busy ∧ outValid s a = true := by
  rcases engineTurn_cases s with ⟨hb, he⟩ | ⟨_, he⟩ <;> rw [he] at h
  · exact ⟨hb, completeStep_changes hb h hn⟩
  · obtain rfl := Host.Outcome.next.inj h
    exact absurd rfl hn

theorem pollStep_changes {spins : Nat} {rest : List Event} (h : pollStep spins rest s = .next t)
    (hn : readByte t.mem a ≠ readByte s.mem a) : s.seq = .busy ∧ t.seq ≠ .busy ∧ outValid s a = true := by
  rcases pollStep_cases spins rest s with ⟨hb, _, he⟩ | ⟨es, he, _⟩ <;> rw [he] at h
  · exact ⟨hb, completeStep_changes (s := setEvents (.poll 0 :: rest) s) hb h hn⟩
  · obtain rfl := Host.Outcome.next.inj h
    exact absurd (by rw [setEvents_mem, regRead_mem]) hn

/-- Reset changes memory in `BUSY` only, at the `OutValid` of the command it abandons (R150, R151). -/
theorem resetEvent_changes (h : resetEvent s = .next t) (hn : readByte t.mem a ≠ readByte s.mem a) :
    s.seq = .busy ∧ t.seq ≠ .busy ∧ outValid s a = true := by
  rcases resetEvent_eq_next h with ⟨_, rfl⟩ | ⟨hb, u, hu, rfl⟩
  · exact absurd rfl hn
  · exact ⟨hb, nofun, (engineWork_havocOutValid hu).outValid_of_changed hn⟩

/-- Beyond itself an access changes bytes of `OutValid` of commands completed unseen only, and only where it touches one
(R39 (b), R153). -/
theorem outValid_of_breakHandsOff_changes {touches : State → Bool} (h : breakHandsOff touches s = .ok t)
    (hn : readByte t.mem a ≠ readByte s.mem a) :
    (∃ o ∈ s.unseen, outValid (useOperands o s) a = true) ∧ touchesUnseen touches s = true := by
  obtain ⟨htouches, hspoiled⟩ := breakHandsOff_changes h hn
  exact ⟨outValid_of_spoiled hspoiled, htouches⟩

theorem hostWrite_changes {b : Word} {v : Byte} (h : hostWrite b v s = .next t)
    (hn : readByte t.mem a ≠ readByte s.mem a) :
    b.toNat = a ∨ ((∃ o ∈ s.unseen, outValid (useOperands o s) a = true) ∧
      touchesUnseen (storeTouches b.toNat) s = true) := by
  refine or_iff_not_imp_left.2 fun hne => ?_
  have hstored : readByte (setByte s.mem b.toNat v) a = readByte s.mem a := by rw [readByte_setByte, if_neg hne]
  exact outValid_of_breakHandsOff_changes (s := setMem (setByte s.mem b.toNat v) s) (toOutcome_eq_next.1 h)
    (hstored ▸ hn)

theorem hostRead_changes {b : Word} (h : hostRead b s = .next t) (hn : readByte t.mem a ≠ readByte s.mem a) :
    (∃ o ∈ s.unseen, outValid (useOperands o s) a = true) ∧ touchesUnseen (loadTouches b.toNat) s = true := by
  rcases hostRead_cases b s with ⟨_, he⟩ | ⟨_, he⟩ <;> rw [he] at h
  · exact outValid_of_breakHandsOff_changes (s := countDraw (respond _ s)) (toOutcome_eq_next.1 h) hn
  · obtain rfl := Host.Outcome.next.inj h
    exact absurd rfl hn

end

/-- Settles O32: the port changes no byte, the engine's turn, a poll and reset end the running command, and the host's
accesses change their own byte and what they make unspecified. -/
theorem memoryChangesOnlyByHostOrInOutValid : Obligations.MemoryChangesOnlyByHostOrInOutValid := by
  unfold Obligations.MemoryChangesOnlyByHostOrInOutValid
  intro s t a h hn
  rcases step_cases s with ⟨_, he⟩ | ⟨e, rest, hev, he⟩ <;> rw [he] at h
  · exact .inr (.inl (engineTurn_changes h hn))
  · cases e with
    | port tr => exact absurd (congrArg (readByte · a) (portStep_mem (s := setEvents rest s) h)) hn
    | memWrite b v =>
      rcases hostWrite_changes (s := setEvents rest s) h hn with hb | ⟨hv, htouches⟩
      · exact .inl ⟨b, v, rest, hev, hb⟩
      · exact .inr (.inr ⟨hv, .inl ⟨b, v, rest, hev, htouches⟩⟩)
    | memRead b =>
      obtain ⟨hv, htouches⟩ := hostRead_changes (s := setEvents rest s) h hn
      exact .inr (.inr ⟨hv, .inr ⟨b, rest, hev, htouches⟩⟩)
    | engine => exact .inr (.inl (engineTurn_changes (s := setEvents rest s) h hn))
    | poll spins => exact .inr (.inl (pollStep_changes h hn))
    | reset => exact .inr (.inl (resetEvent_changes (s := setEvents rest s) h hn))

/-! ## Free bytes at `OutValid`: a completion after a violation, and reset in `BUSY` -/

/-- Where the operands are accepted, the work that leaves any values answers: a free byte of its own at every position
of `OutValid`, and no other byte changed (R151, U4, U7). -/
theorem havocOutValid_writesExactly {s : State} (hs : OperandsAccepted s) :
    ∃ mem, havocOutValid s = .ok { s with mem := mem, drawn := s.drawn + validCount s } ∧
      WritesExactly s (drawnByte s) mem := by
  obtain ⟨mem, hok, hw⟩ := havocOutValid_eq hs.outRange
  exact ⟨mem, hok, writesExactly_of_written hw fun _ _ => rfl⟩

/-- COMPLETE after a violation leaves any values, whatever the command (R61, U4). -/
theorem complete_of_tainted {effect : State → Except Fault State} {s : State} (ht : s.tainted = true) :
    complete effect s = toOutcome ((havocOutValid s).map finish) := by
  rw [complete, if_pos ht]

/-- Settles O26: every command's COMPLETE is then the one work that leaves any values. -/
theorem taintedCompletionLeavesFreeBytes : Obligations.TaintedCompletionLeavesFreeBytes := by
  unfold Obligations.TaintedCompletionLeavesFreeBytes
  intro i s hb ht hs
  obtain ⟨mem, hok, hw⟩ := havocOutValid_writesExactly hs
  refine ⟨mem, ?_, hw⟩
  rw [exec_of_busy hb, complete_of_tainted ht, hok]
  rfl

/-- Settles O27: `step_reset_of_not_busy`, field by field. -/
theorem resetSetsTheRegisters : Obligations.ResetSetsTheRegisters := by
  unfold Obligations.ResetSetsTheRegisters
  exact fun s rest he hb => step_reset_of_not_busy he hb

/-- Reset in `BUSY` (R151). -/
theorem step_reset_of_busy {s : State} {rest : List Event} (he : s.events = .reset :: rest) (hb : s.seq = .busy) :
    step s = toOutcome ((havocOutValid (setEvents rest s)).map resetEngine) := by
  rw [step_cons he, eventStep, resetEvent, if_pos (show (setEvents rest s).seq = .busy from hb)]

/-- Settles O28: the same work, and then reset's effect on the engine. -/
theorem resetInBusyAbandonsTheCommand : Obligations.ResetInBusyAbandonsTheCommand := by
  unfold Obligations.ResetInBusyAbandonsTheCommand
  intro s rest he hb hs
  have haccepted : OperandsAccepted (setEvents rest s) := hs.of_operands_eq rfl
  obtain ⟨mem, hok, hw⟩ := havocOutValid_writesExactly haccepted
  refine ⟨mem, ?_, hw⟩
  rw [step_reset_of_busy he hb, hok]
  rfl

/-! ## The host's accesses to memory, as the access itself and what it does beyond itself -/

section
variable {s : State} {a : Word} {rest : List Event}

/-- A store changes its byte, and then does what the violation does, if it is one (R30, R153). -/
theorem step_memWrite {v : Byte} (he : s.events = .memWrite a v :: rest) :
    step s = toOutcome (breakHandsOff (storeTouches a.toNat)
      (setMem (setByte s.mem a.toNat v) (setEvents rest s))) := by
  rw [step_cons he]
  rfl

/-- A load that breaks R153 returns a free byte, and then does what the violation does (R39, U4). -/
theorem step_memRead_of_breaks (he : s.events = .memRead a :: rest)
    (hbreaks : breaksHandsOff (loadTouches a.toNat) s = true) :
    step s = toOutcome (breakHandsOff (loadTouches a.toNat)
      (countDraw (respond (.byte a (Config.freeByte s.drawn)) (setEvents rest s)))) := by
  rw [step_cons he, eventStep, hostRead,
    if_pos (show breaksHandsOff (loadTouches a.toNat) (setEvents rest s) = true from hbreaks)]
  rfl

/-- A load that breaks nothing returns the byte, in every value of `STATE` (R30). -/
theorem step_memRead_of_not_breaks (he : s.events = .memRead a :: rest)
    (hkeeps : breaksHandsOff (loadTouches a.toNat) s = false) :
    step s = .next { s with events := rest, out := s.out ++ [.byte a (readByte s.mem a.toNat)] } := by
  rw [step_cons he, eventStep, hostRead_of_not_breaks (s := setEvents rest s) hkeeps]
  rfl

end

/-! ## In `BUSY`, where no command completed unseen is touched -/

/-- In `BUSY` an access that touches the running command breaks R153. -/
theorem breaksHandsOff_in_busy {touches : State → Bool} {s : State} (hb : s.seq = .busy) (ht : touches s = true) :
    breaksHandsOff touches s = true := by
  simp [breaksHandsOff, hb, ht]

/-- In `BUSY` an access that touches no command completed unseen leaves the mark where it touches the running one. -/
theorem breakHandsOff_in_busy {touches : State → Bool} {s : State} (hb : s.seq = .busy)
    (hu : touchesUnseen touches s = false) :
    breakHandsOff touches s = .ok { s with tainted := s.tainted || touches s } := by
  rw [breakHandsOff_of_unseen hu, decide_eq_true hb, Bool.true_and]

/-- Settles O31: with no earlier command touched, all an access does beyond itself is to leave the mark. -/
theorem hostAccessInBusy : Obligations.HostAccessInBusy := by
  unfold Obligations.HostAccessInBusy
  intro s a rest hb
  refine ⟨fun v he h => ⟨setByte s.mem a.toNat v, ?_, fun b => ?_⟩,
    fun he h => ⟨fun hout => ?_, fun hout => ?_⟩⟩
  · have huntouched : touchesUnseen (storeTouches a.toNat) s = false :=
      touchesUnseen_eq_false.2 fun o ho => Bool.or_eq_false_iff.2 (h o ho)
    rw [step_memWrite he,
      breakHandsOff_in_busy (s := setMem (setByte s.mem a.toNat v) (setEvents rest s)) hb huntouched, Bool.or_assoc]
    rfl
  · simp only [readByte_setByte, eq_comm]
  · exact step_memRead_of_not_breaks he (breaksHandsOff_eq_false.2 ⟨fun _ => hout, h⟩)
  · have huntouched : touchesUnseen (loadTouches a.toNat) s = false := touchesUnseen_eq_false.2 h
    rw [step_memRead_of_breaks he (breaksHandsOff_in_busy hb hout),
      breakHandsOff_in_busy (s := countDraw (respond _ (setEvents rest s))) hb huntouched]
    simp [toOutcome, loadTouches, hout]

/-! ## Where a command completed unseen is touched (R153, U4) -/

/-- The bytes an access makes unspecified are decided by their last writer (U4, R22). -/
theorem lastWriterDecides_spoiled (touches : State → Bool) (s : State) :
    LastWriterDecides touches s (spoiled touches s) := by
  refine ⟨fun b hb => spoilAll_of_unwritten hb, fun pre post o hs b hb hpost => ?_⟩
  have hlast : spoiled touches s b =
      (touches (useOperands o s) || readsSome (spoilAll touches s pre fun _ => false) (useOperands o s)) := by
    rw [spoiled, hs, spoilAll_last hb hpost]
  rw [hlast]
  refine ⟨fun ht => by rw [ht, Bool.true_or], fun ht => ?_⟩
  rw [ht, Bool.false_or, readsSome_iff]

/-- What a violation does from `t`, the state the access itself leaves, is told by the commands completed unseen in `s`,
the state before it. -/
theorem breakHandsOff_after_access {touches : State → Bool} {s t : State} (hunseen : t.unseen = s.unseen)
    (htouches : ∀ o, touches (useOperands o t) = touches (useOperands o s))
    (hs : ∀ o ∈ s.unseen, OperandsAccepted (useOperands o s)) :
    ∃ mem count, breakHandsOff touches t = .ok { t with
        mem := mem, drawn := t.drawn + count
        tainted := t.tainted || (decide (t.seq = .busy) && touches t) } ∧
      FreeExactly t.mem (fun b => spoiled touches s b = true) t.drawn count mem := by
  rw [← spoiled_congr hunseen htouches]
  exact breakHandsOff_eq fun o ho => (hs o (hunseen ▸ ho)).outRange

/-- Settles O51: the store itself, then what the violation does over the memory it leaves. -/
theorem hostStoreBeforeDoneIsRead : Obligations.HostStoreBeforeDoneIsRead := by
  unfold Obligations.HostStoreBeforeDoneIsRead
  intro s a v rest he hs _
  obtain ⟨mem, count, hok, hfree⟩ := breakHandsOff_after_access (s := s) (touches := storeTouches a.toNat)
    (t := setMem (setByte s.mem a.toNat v) (setEvents rest s)) rfl (fun _ => rfl) hs
  refine ⟨⟨mem, count, ?_, hfree⟩, lastWriterDecides_spoiled (storeTouches a.toNat) s⟩
  rw [step_memWrite he, hok]
  rfl

/-- Settles O52: the free byte returned is drawn first, then those of what the violation does. -/
theorem hostLoadBeforeDoneIsRead : Obligations.HostLoadBeforeDoneIsRead := by
  unfold Obligations.HostLoadBeforeDoneIsRead
  rintro s a rest he hs ⟨o, ho, htouched⟩
  obtain ⟨mem, count, hok, hfree⟩ := breakHandsOff_after_access (s := s) (touches := loadTouches a.toNat)
    (t := countDraw (respond (.byte a (Config.freeByte s.drawn)) (setEvents rest s))) rfl (fun _ => rfl) hs
  refine ⟨⟨mem, count, ?_, hfree⟩, lastWriterDecides_spoiled (loadTouches a.toNat) s⟩
  rw [step_memRead_of_breaks he (breaksHandsOff_of_touches ho htouched), hok]
  rfl

end Sys2Proof.Machine
end
